-- ==== Sys2Proof/Word.lean ====
section
/-! DEFINITION. The word types of the LCD serializer: 00_scope R8 (every value an unsigned integer of a stated width)
and 30_encoding R70 (the formats). A port handle is its number, counted from 0 (R7 `Handle`), a plain `Nat`. -/

namespace Sys2Proof

/-- `u8`: what holds a port register, the tracked column or an operand, each of them up to its own width (`PORT_WIDTH`,
`COL_WIDTH`, `OPERAND_WIDTH`: arguments in `Params`, 8 by R7), and a byte on the LCD's bus (R75). -/
abbrev Byte := BitVec 8

/-- `u4`: what the LCD latches at one falling edge of E (R73). -/
abbrev Nibble := BitVec 4

/-- One word offered to the block: a host request word (format `HOST24`, R80) or, for the protocol engine modelled alone
(R93), a transaction word (format `PE12`, R90). -/
inductive CodeWord where
  | host (w : BitVec 24)
  | pe (w : BitVec 12)
  deriving DecidableEq, Repr

end Sys2Proof
end

