-- ==== Sys2Proof/Syntax.lean ====
section
/-! DEFINITION. The requests: one constructor per row of spec/opcode_table.json (30_encoding R81, R91), the PE transactions
the cursor tracker issues, and the assembler's source lines (R87, R88). -/

namespace Sys2Proof

/-- The nine host requests (R81) and the four PE transactions (R91), with their operands as u8 immediates (R80, R90). -/
inductive Instr where
  /-- `INIT` (41 R140). -/
  | init
  /-- `SETCFG h` (41 R141). -/
  | setcfg (h : Byte)
  /-- `MOVE r, c` (41 R142). -/
  | move (r c : Byte)
  /-- `PUTC ch` (41 R144). -/
  | putc (ch : Byte)
  /-- `CLEAR` (41 R147). -/
  | clear
  /-- `HOME` (41 R148). -/
  | home
  /-- `NUMBER n` (41 R149). -/
  | number (n : Byte)
  /-- `CLRLINE c` (41 R151). -/
  | clrline (c : Byte)
  /-- `CLRFROM x, y` (41 R153). -/
  | clrfrom (x y : Byte)
  /-- `PE.CMD b` (40 R111). -/
  | peCmd (b : Byte)
  /-- `PE.DATA b` (40 R112). -/
  | peData (b : Byte)
  /-- `PE.PORTINIT` (40 R113). -/
  | pePortinit
  /-- `PE.SELECT h` (40 R114). -/
  | peSelect (h : Byte)
  deriving DecidableEq, Repr

/-- A PE transaction as the cursor tracker issues it (R91, R155, R156). -/
inductive Txn where
  | cmd (b : Byte)
  | data (b : Byte)
  | portInit
  | select (h : Byte)
  deriving DecidableEq, Repr

/-- The same transaction as an input of the protocol engine modelled alone (R93). -/
def Txn.toInstr : Txn → Instr
  | .cmd b => .peCmd b
  | .data b => .peData b
  | .portInit => .pePortinit
  | .select h => .peSelect h

/-- The mnemonics an assembler line may use (R87): the host requests. -/
inductive HostOp where
  | init | setcfg | move | putc | clear | home | number | clrline | clrfrom
  deriving DecidableEq, Repr

/-- A source line before its literals are checked: a host request with operand literals (R87), or the pseudo-request
`WRITE s` with the list of its bytes' literals (R88). -/
inductive SourceLine where
  | req (op : HostOp) (operands : List Nat)
  | write (bytes : List Nat)
  deriving DecidableEq, Repr

end Sys2Proof
end

