-- ==== Sys2Proof/WellFormed.lean ====
section
/-! DEFINITION. Well-formedness. Every term of `Instr` is well formed by its type: its operands are u8 values and the
decoder performs no range check (30_encoding R80, R82). What can be ill formed is a SOURCE line: its number of operands
(R87 "The forms are ...") and its literals (R87 "a literal outside 0..255 is an assembly error"). -/

namespace Sys2Proof

/-- How many operands a host request takes (R81 columns A and B, R87). -/
def HostOp.arity : HostOp → Nat
  | .init => 0
  | .setcfg => 1
  | .move => 2
  | .putc => 1
  | .clear => 0
  | .home => 0
  | .number => 1
  | .clrline => 1
  | .clrfrom => 2

/-- A literal stands for a u8 (R87). -/
def literalOk (n : Nat) : Bool := decide (n ≤ 255)

/-- The operand count and the literals of a source line are those R87 and R88 allow. -/
def SourceLine.wellFormed : SourceLine → Bool
  | .req op operands => decide (operands.length = op.arity) && operands.all literalOk
  | .write bytes => bytes.all literalOk

end Sys2Proof
end

