-- ==== Sys2Proof/Decode.lean ====
section
/-! DEFINITION. The request words: the decoder, total on every word (30_encoding R80 to R86, R90 to R92), and after it the
encoder. A word that spells no request is rejected under the name R203 gives it. -/

namespace Sys2Proof

/-- Why a word is no request (R203, R204): the format it was offered in, and the word. -/
inductive Reject where
  /-- `ReservedRequest`, cause 3 (R83). -/
  | reservedRequest (w : BitVec 24)
  /-- `ReservedPE`, cause 4 (R92). -/
  | reservedPE (w : BitVec 12)
  deriving DecidableEq, Repr

/-! ### Fields (R80, R90) -/

/-- `OPC`, bits 23:16. -/
def hostOpc (w : BitVec 24) : Byte := w.extractLsb' 16 8

/-- `A`, bits 15:8. -/
def hostA (w : BitVec 24) : Byte := w.extractLsb' 8 8

/-- `B`, bits 7:0. -/
def hostB (w : BitVec 24) : Byte := w.extractLsb' 0 8

/-- `KIND`, bits 11:8. -/
def peKind (w : BitVec 12) : BitVec 4 := w.extractLsb' 8 4

/-- `OPD`, bits 7:0. -/
def peOpd (w : BitVec 12) : Byte := w.extractLsb' 0 8

/-! ### The decoder -/

/-- A request whose unused operand fields are marked "must be 0" (R81): reserved unless they are (R83). -/
def mustBeZero (unused : Bool) (w : BitVec 24) (i : Instr) : Except Reject Instr :=
  if unused then .ok i else .error (.reservedRequest w)

/-- R81's map with R83's verdict on every other word. -/
def decodeHost (w : BitVec 24) : Except Reject Instr :=
  let a := hostA w
  let b := hostB w
  match hostOpc w with
  | 0x01#8 => mustBeZero (a == 0#8 && b == 0#8) w .init
  | 0x02#8 => mustBeZero (b == 0#8) w (.setcfg a)
  | 0x03#8 => .ok (.move a b)
  | 0x04#8 => mustBeZero (b == 0#8) w (.putc a)
  | 0x05#8 => mustBeZero (a == 0#8 && b == 0#8) w .clear
  | 0x06#8 => mustBeZero (a == 0#8 && b == 0#8) w .home
  | 0x07#8 => mustBeZero (b == 0#8) w (.number a)
  | 0x08#8 => mustBeZero (b == 0#8) w (.clrline a)
  | 0x09#8 => .ok (.clrfrom a b)
  | _ => .error (.reservedRequest w)

/-- R91's map with R92's verdict on every other word. -/
def decodePe (w : BitVec 12) : Except Reject Instr :=
  let opd := peOpd w
  match peKind w with
  | 0x0#4 => .ok (.peCmd opd)
  | 0x1#4 => .ok (.peData opd)
  | 0x2#4 => if opd == 0#8 then .ok .pePortinit else .error (.reservedPE w)
  | 0x3#4 => .ok (.peSelect opd)
  | _ => .error (.reservedPE w)

/-- The decoder of an offered word: each interface has its own format and reads no other (R86, R93). -/
def decode : CodeWord → Except Reject Instr
  | .host w => decodeHost w
  | .pe w => decodePe w

/-! ### The encoder -/

/-- The word `OPC ++ A ++ B` (R80). -/
def hostWord (opc a b : Byte) : BitVec 24 := opc ++ a ++ b

/-- The word `KIND ++ OPD` (R90). -/
def peWord (kind : BitVec 4) (opd : Byte) : BitVec 12 := kind ++ opd

/-- The one word of each request (R81, R91, R86). -/
def encode : Instr → CodeWord
  | .init => .host (hostWord 0x01#8 0#8 0#8)
  | .setcfg h => .host (hostWord 0x02#8 h 0#8)
  | .move r c => .host (hostWord 0x03#8 r c)
  | .putc ch => .host (hostWord 0x04#8 ch 0#8)
  | .clear => .host (hostWord 0x05#8 0#8 0#8)
  | .home => .host (hostWord 0x06#8 0#8 0#8)
  | .number n => .host (hostWord 0x07#8 n 0#8)
  | .clrline c => .host (hostWord 0x08#8 c 0#8)
  | .clrfrom x y => .host (hostWord 0x09#8 x y)
  | .peCmd b => .pe (peWord 0x0#4 b)
  | .peData b => .pe (peWord 0x1#4 b)
  | .pePortinit => .pe (peWord 0x2#4 0#8)
  | .peSelect h => .pe (peWord 0x3#4 h)

/-- The `PE12` word of a transaction the cursor tracker issues (R91). -/
def Txn.word : Txn → BitVec 12
  | .cmd b => peWord 0x0#4 b
  | .data b => peWord 0x1#4 b
  | .portInit => peWord 0x2#4 0#8
  | .select h => peWord 0x3#4 h

/-- Whether a request is a transaction of the protocol engine modelled alone (R91, R93), which no host can send. -/
def Instr.isPe : Instr → Bool
  | .peCmd _ => true
  | .peData _ => true
  | .pePortinit => true
  | .peSelect _ => true
  | .init => false
  | .setcfg _ => false
  | .move _ _ => false
  | .putc _ => false
  | .clear => false
  | .home => false
  | .number _ => false
  | .clrline _ => false
  | .clrfrom _ _ => false

/-! ### The opcode table (R84: "a word w matches a row when (w & mask) == match") -/

/-- The format of a row. -/
inductive Format where
  | host24 | pe12
  deriving DecidableEq, Repr

/-- A row of spec/opcode_table.json. -/
structure TableRow where
  mnemonic : String
  format : Format
  pattern : Nat
  mask : Nat
  deriving DecidableEq, Repr

/-- spec/opcode_table.json, its `match` and `mask` columns. -/
def opcodeTable : List TableRow :=
  [ ⟨"INIT", .host24, 0x010000, 0xFFFFFF⟩,
    ⟨"SETCFG", .host24, 0x020000, 0xFF00FF⟩,
    ⟨"MOVE", .host24, 0x030000, 0xFF0000⟩,
    ⟨"PUTC", .host24, 0x040000, 0xFF00FF⟩,
    ⟨"CLEAR", .host24, 0x050000, 0xFFFFFF⟩,
    ⟨"HOME", .host24, 0x060000, 0xFFFFFF⟩,
    ⟨"NUMBER", .host24, 0x070000, 0xFF00FF⟩,
    ⟨"CLRLINE", .host24, 0x080000, 0xFF00FF⟩,
    ⟨"CLRFROM", .host24, 0x090000, 0xFF0000⟩,
    ⟨"PE.CMD", .pe12, 0x000, 0xF00⟩,
    ⟨"PE.DATA", .pe12, 0x100, 0xF00⟩,
    ⟨"PE.PORTINIT", .pe12, 0x200, 0xFFF⟩,
    ⟨"PE.SELECT", .pe12, 0x300, 0xF00⟩ ]

/-- `(w & mask) == match`, in the row's own format (R84). -/
def TableRow.matchesWord (row : TableRow) : CodeWord → Bool
  | .host w => decide (row.format = .host24) && (w &&& BitVec.ofNat 24 row.mask == BitVec.ofNat 24 row.pattern)
  | .pe w => decide (row.format = .pe12) && (w &&& BitVec.ofNat 12 row.mask == BitVec.ofNat 12 row.pattern)

/-- Two rows share no word: they are of different formats, or their patterns differ in a bit both masks hold. -/
def TableRow.disjointFrom (r q : TableRow) : Bool :=
  decide (r.format ≠ q.format) || r.pattern &&& (r.mask &&& q.mask) != q.pattern &&& (r.mask &&& q.mask)

/-- The mnemonic of a request, as spec/opcode_table.json spells it (R81, R91). -/
def Instr.mnemonic : Instr → String
  | .init => "INIT"
  | .setcfg _ => "SETCFG"
  | .move _ _ => "MOVE"
  | .putc _ => "PUTC"
  | .clear => "CLEAR"
  | .home => "HOME"
  | .number _ => "NUMBER"
  | .clrline _ => "CLRLINE"
  | .clrfrom _ _ => "CLRFROM"
  | .peCmd _ => "PE.CMD"
  | .peData _ => "PE.DATA"
  | .pePortinit => "PE.PORTINIT"
  | .peSelect _ => "PE.SELECT"

/-- A request's word as the table numbers its bits, and the format it is offered in: `nbits` up to 16 is a `PE12` word (12
bits, or the two whole bytes that hold it with bits 15:12 zero), up to 24 a `HOST24` word. A request word is one word of its
interface and is not stored in bytes, so there is no byte order (log 20). -/
def tableCodeWord (nbits w : Nat) : Option CodeWord :=
  if nbits ≤ 16 then
    if w < 4096 then some (.pe (BitVec.ofNat 12 w)) else none
  else if nbits ≤ 24 then
    if w < 16777216 then some (.host (BitVec.ofNat 24 w)) else none
  else none

/-- What the decoder reads from a word whose bits are numbered as spec/opcode_table.json numbers them. -/
def decodeTableWord (nbits w : Nat) : Option Instr :=
  match tableCodeWord nbits w with
  | some c =>
    match decode c with
    | .ok i => some i
    | .error _ => none
  | none => none

end Sys2Proof
end

