-- ==== Sys2Proof/Config.lean ====
section
/-! DEFINITION. What an implementation fixes and what the spec leaves free. The OPEN parameters of 00_scope R7 and 70 R232 are
constants without a body: nothing can be proved of their values. The values R7 gives the others stand in Machine/Params.lean. -/

namespace Sys2Proof

/-- The parameters of the block that a run takes as arguments (R7): the number of ports, the handle the block is constructed
with, the widths, the layout of the port byte, the geometry of the display, the prefix of the address command, the command
bytes and character codes (93 G2 to G4), and what the waits are reckoned from. The state carries them, so that every statement
about every state is a statement for all their values (DESIGN CHOICE, log 6, log 7, log 18). -/
structure Params where
  /-- `N_PORTS` less one: R7 requires `N_PORTS >= 1` (D28). -/
  morePorts : Nat
  /-- `INITIAL_HANDLE` (D19). -/
  initialHandle : Nat
  /-- `PORT_WIDTH`, at most 8 (log 33). -/
  portWidth : Nat
  /-- `COL_WIDTH` (D4), at most 8 (log 33). -/
  colWidth : Nat
  /-- `OPERAND_WIDTH` (D4), at most 8 (log 33). -/
  operandWidth : Nat
  /-- `DATA_NIBBLE_BITS`: four port bits, of which this is the lowest. -/
  nibbleLow : Nat
  /-- `RS_BIT`. -/
  rsBit : Nat
  /-- `E_BIT`. -/
  eBit : Nat
  /-- `DIR_MASK` (R24). -/
  dirMask : Byte
  /-- `ROWS`. -/
  rows : Nat
  /-- `COLS`. -/
  cols : Nat
  /-- `ROW_SHIFT`. -/
  rowShift : Nat
  /-- `WRAP_COL`. -/
  wrapCol : Byte
  /-- `ADDR_CMD_PREFIX` (D7, C3). -/
  addrCmdPrefix : Byte
  /-- `OP_HANDSHAKE`. -/
  opHandshake : Byte
  /-- `OP_FUNCSET` (D5). -/
  opFuncset : Byte
  /-- `OP_ENTRY` (D5). -/
  opEntry : Byte
  /-- `OP_DISPON` (D5). -/
  opDispon : Byte
  /-- `OP_CLEAR` (D5). -/
  opClear : Byte
  /-- `OP_HOME` (D5). -/
  opHome : Byte
  /-- `CHAR_ZERO` (D15). -/
  charZero : Byte
  /-- `CHAR_SPACE` (D15). -/
  charSpace : Byte
  /-- `CHAR_X` (D15). -/
  charX : Byte
  /-- `F_CPU` in hertz (D11). A rational number: DESIGN CHOICE, log 29. -/
  fCpuHz : Rat
  /-- `T_BYTE` in nanoseconds (D11). -/
  tByteNs : Rat
  /-- `T_CMD` in nanoseconds (D11). -/
  tCmdNs : Rat
  /-- `T_POWERON` in nanoseconds: how long the LCD needs before the first request (R232, D29). No rule of the block reads it:
  the wait is the host's duty (`Params.poweredUp`). -/
  tPowerOnNs : Rat
  deriving DecidableEq, Repr

/-- OPEN (D28, U11): how many ports there are besides port 0. Free (log 6). -/
opaque Config.morePorts : Nat

/-- OPEN (D19, U11): the handle the block is constructed with, a member of `Handle`. Free (log 6). -/
opaque Config.initialHandle : Fin (Config.morePorts + 1)

/-- OPEN (D11, U9): `F_CPU` is the quotient of the two numbers, each plus one, in hertz (`Machine.openFCpuHz`). Free
(log 29). -/
opaque Config.fCpuRatio : Nat × Nat

/-- OPEN (D29, U12): `T_POWERON` is the quotient of the first number by the second plus one, in nanoseconds
(`Machine.openTPowerOnNs`). Free (log 32). -/
opaque Config.tPowerOnRatio : Nat × Nat

/-- U3, D30: what each port register holds before the block first writes it, "a draw, under no law". The argument is the
register's key (`Machine.dataKey`, `Machine.dirKey`). Free (log 4). -/
opaque Config.portDraw : Nat → Byte

/-- U5: what `SAVED` holds after the `n`-th block reset. Free (log 5). -/
opaque Config.savedDraw : Nat → Byte

end Sys2Proof
end

