-- ==== Sys2Proof/Machine/Params.lean ====
section
/-! DEFINITION. The parameters of 00_scope R7 and 70 R232: what they must meet, what is derived from them, and the values the
spec gives them. -/

namespace Sys2Proof

/-- `N_PORTS` (R7, D28). -/
def Params.nPorts (p : Params) : Nat := p.morePorts + 1

/-- `h` is a member of `Handle`: numbered 0 to `N_PORTS - 1` (R7). Written by cases on `h`, so that handle 0 is seen to be
a member whatever `N_PORTS` is. -/
def Params.isHandle (p : Params) : Nat → Bool
  | 0 => true
  | k + 1 => Nat.blt k p.morePorts

/-! ### Widths (R7, D4) -/

/-- The values a width holds, as a mask of the byte that stands for them. -/
def widthMask (w : Nat) : Byte := BitVec.ofNat 8 (2 ^ w - 1)

/-- What a port register keeps of a value: `PORT_WIDTH` bits (log 33). -/
def Params.portVal (p : Params) (v : Byte) : Byte := v &&& widthMask p.portWidth

/-- What the tracked column keeps of a value: it "wraps modulo 256", modulo 2 to the `COL_WIDTH` (R25; log 33). -/
def Params.colVal (p : Params) (v : Byte) : Byte := v &&& widthMask p.colWidth

/-- What a request takes of an operand field: `OPERAND_WIDTH` bits (log 33). -/
def Params.operand (p : Params) (v : Byte) : Byte := v &&& widthMask p.operandWidth

/-- The widths the model represents: a register, the column and an operand each fit a byte (log 33). -/
def Params.widthsOk (p : Params) : Bool :=
  decide (p.portWidth ≤ 8) && decide (p.colWidth ≤ 8) && decide (p.operandWidth ≤ 8)

/-! ### The port byte (R7, R23, R71) -/

/-- `DATA_NIBBLE_BITS` as a mask. -/
def Params.nibbleMask (p : Params) : Byte := 0x0F#8 <<< p.nibbleLow

/-- `RS_BIT` as a mask. -/
def Params.rsMask (p : Params) : Byte := 0x01#8 <<< p.rsBit

/-- `E_BIT` as a mask. -/
def Params.eMask (p : Params) : Byte := 0x01#8 <<< p.eBit

/-- The port bits the block does not drive, R23's `RSV`. -/
def Params.rsvMask (p : Params) : Byte := p.portVal (~~~(p.nibbleMask ||| p.rsMask ||| p.eMask))

/-- The port lines `DIR_MASK` makes outputs (R24). -/
def Params.drivenMask (p : Params) : Byte := p.portVal p.dirMask

/-- The fields of R71 lie in the port byte and do not overlap. -/
def Params.layoutOk (p : Params) : Bool :=
  decide (p.nibbleLow + 4 ≤ p.portWidth) && decide (p.rsBit < p.portWidth) && decide (p.eBit < p.portWidth) &&
    p.nibbleMask &&& p.rsMask == 0#8 && p.nibbleMask &&& p.eMask == 0#8 && p.rsMask &&& p.eMask == 0#8

/-! ### Time (R105, R232) -/

/-- `T_GAP` = 1 / `F_CPU` (R7, R105), in nanoseconds. -/
def Params.tGapNs (p : Params) : Rat := 1000000000 / p.fCpuHz

/-- The host's power-up duty (R232): it has let so many nanoseconds pass since power-up before its first request. The block
performs no such wait and checks none (D29). -/
def Params.poweredUp (p : Params) (sincePowerUpNs : Rat) : Bool := decide (p.tPowerOnNs ≤ sincePowerUpNs)

/-- R7 requires `INITIAL_HANDLE` to be a member of `Handle`; the widths fit a byte; the port byte is laid out as R71 says;
`F_CPU` is a frequency and `T_POWERON` a length of time. -/
def Params.wf (p : Params) : Bool :=
  p.isHandle p.initialHandle && p.widthsOk && p.layoutOk && decide (0 < p.fCpuHz) && decide (0 ≤ p.tPowerOnNs)

/-! ### The values R7 gives -/

/-- The column and the operands have the width R7 gives them. -/
def Params.specWidths (p : Params) : Bool := p.colWidth == 8 && p.operandWidth == 8

/-- The port byte has the layout R7 gives it: 8 bits, the nibble in bits 7:4, RS in bit 1, E in bit 0; and `DIR_MASK` is
0xF3. -/
def Params.specLayout (p : Params) : Bool :=
  p.portWidth == 8 && p.nibbleLow == 4 && p.rsBit == 1 && p.eBit == 0 && p.dirMask == 0xF3#8

/-- The display has the geometry R7 gives it: 2 rows, 16 columns, row 1 at 0x40, the wrap at column 16;
and the column and the operands have their width. -/
def Params.specGeometry (p : Params) : Bool :=
  p.specWidths && p.rows == 2 && p.cols == 16 && p.rowShift == 6 && p.wrapCol == 16#8

/-- The command bytes and character codes have the values R7 gives them. -/
def Params.specBytes (p : Params) : Bool :=
  p.opHandshake == 0x02#8 && p.opFuncset == 0x28#8 && p.opEntry == 0x06#8 && p.opDispon == 0x0C#8 &&
    p.opClear == 0x01#8 && p.opHome == 0x02#8 && p.charZero == 0x30#8 && p.charSpace == 0x20#8 && p.charX == 0x78#8

namespace Machine

/-- The parameters at the spec's values (R7, R76, R77), the prefix at the document's literal (C3), for OPEN ones as given. -/
def specParams (morePorts initialHandle : Nat) (fCpuHz tPowerOnNs : Rat) : Params :=
  { morePorts := morePorts
    initialHandle := initialHandle
    portWidth := 8
    colWidth := 8
    operandWidth := 8
    nibbleLow := 4
    rsBit := 1
    eBit := 0
    dirMask := 0xF3#8
    rows := 2
    cols := 16
    rowShift := 6
    wrapCol := 16#8
    addrCmdPrefix := 0x00#8
    opHandshake := 0x02#8
    opFuncset := 0x28#8
    opEntry := 0x06#8
    opDispon := 0x0C#8
    opClear := 0x01#8
    opHome := 0x02#8
    charZero := 0x30#8
    charSpace := 0x20#8
    charX := 0x78#8
    fCpuHz := fCpuHz
    tByteNs := 50000
    tCmdNs := 5000000
    tPowerOnNs := tPowerOnNs }

/-- The OPEN `F_CPU` of the run that starts at reset: any positive fraction (log 29). -/
def openFCpuHz : Rat := (Config.fCpuRatio.1 + 1 : Nat) / (Config.fCpuRatio.2 + 1 : Nat)

/-- The OPEN `T_POWERON` of the run that starts at reset: any length of time that is a fraction (log 29, log 32). -/
def openTPowerOnNs : Rat := (Config.tPowerOnRatio.1 : Nat) / (Config.tPowerOnRatio.2 + 1 : Nat)

end Machine

end Sys2Proof
end

