-- ==== Sys2Proof/Machine/State.lean ====
section
/-! DEFINITION. The state of the LCD serializer (10_state R20: "the following, and nothing else"), with the environment the
model needs beside it (the host stream and the reset line) and the model's own records (the output trace, the refusal mark). -/

namespace Sys2Proof.Machine

/-! ### Events and micro-operations -/

/-- The three waits (R9, R105). -/
inductive WaitKind where
  | gap | byte | cmd
  deriving DecidableEq, Repr

/-- One event of the output trace (R9, R10). -/
inductive Event where
  | wrDir (h : Nat) (v : Byte)
  | wrData (h : Nat) (v : Byte)
  | wait (k : WaitKind)
  deriving DecidableEq, Repr

/-- The PE's micro-operations (R100's table). -/
inductive PeOp where
  | eHi | eLo | rsHi | rsLo
  | put (v : Byte)
  | zero
  | dirCfg (h : Nat)
  | setAct (h : Nat)
  | wait (k : WaitKind)
  deriving DecidableEq, Repr

/-- The CT's register updates, each a micro-operation ("a port access, a register update or a wait", glossary). -/
inductive CtOp where
  /-- `COL <- v`. -/
  | setCol (v : Byte)
  /-- `COL <- (COL + 1) mod 256`, the modulus being that of `COL_WIDTH`. -/
  | incCol
  /-- `SAVED <- COL`. -/
  | saveCol
  /-- `mark_misuse()`. -/
  | markMisuse
  deriving DecidableEq, Repr

/-- One step of the sequencer (R30, R100). -/
inductive MicroOp where
  | pe (op : PeOp)
  | ct (op : CtOp)
  deriving DecidableEq, Repr

/-! ### Why a run stops -/

/-- The faults (R201, R204).

`invalidHandle h`: raised by `SETCFG h` and `PE.SELECT h` when `h` is not a member of `Handle`, which enter the state
`Faulted`; a step from `Faulted` answers this fault. Safe: the model has no run past it (R201). -/
inductive Fault where
  | invalidHandle (h : Nat)
  deriving DecidableEq, Repr

/-- The refusals of the host's interface.

`notModelled m`: an instruction rejected by name in `exec`. Nobody raises it: every instruction has its meaning. Safe. (A
reserved word is no refusal of this kind: R203 gives it an effect, the refusal mark, see `State.refusals`.) -/
inductive Refusal where
  | notModelled (mnemonic : String)
  deriving DecidableEq, Repr

/-! ### The units' registers -/

/-- The sequencer position (R30). `busy r i ops`: request `r` is in progress, `ops` is the micro-operation list it expanded
to when it was accepted, and `i` is the number of the next one. -/
inductive Seq where
  | idle
  | busy (r : Instr) (i : Nat) (ops : List MicroOp)
  | faulted (f : Fault)
  deriving DecidableEq, Repr

/-- What the PE is a function of (R155): `ACTIVE` and the port registers it sees (R20). -/
structure Pe where
  /-- `ACTIVE` (R21). -/
  active : Nat
  /-- `DATA[h]` and `DIR[h]` (R22), by register key (`dataKey`, `dirKey`), in rising order of the key. -/
  ports : List Host.Cell
  deriving DecidableEq, Repr

/-- The registers the CT is a function of (R155). -/
structure Ct where
  /-- `COL` (R25). -/
  col : Byte
  /-- `SAVED` (R26). Between `CLRFROM` requests it keeps the last saved column: DESIGN CHOICE, R26 leaves it unspecified
  (log 28). -/
  saved : Byte
  /-- `MISUSE` (R27). -/
  misuse : Bool
  deriving DecidableEq, Repr

/-- The words the environment has still to offer, the next one first, and with them what is modelled: the whole block, whose
host sends host requests and nothing else, or the PE alone, which takes `PE12` words (R93; log 2, log 21). -/
inductive Offers where
  | host (ws : List (BitVec 24))
  | peAlone (ws : List (BitVec 12))
  deriving DecidableEq, Repr

/-- The machine. -/
structure State where
  /-- The parameters of the run (R7, R232; log 6, log 7, log 18, log 29, log 32). No step changes them. -/
  par : Params
  /-- The PE's state, the external port registers among it (R20). -/
  pe : Pe
  /-- The CT's state (R20). -/
  ct : Ct
  /-- `SEQ` (R30). -/
  seq : Seq
  /-- The refusal mark of R203, kept for the run: the refused words, oldest first; set when not empty. -/
  refusals : List Reject
  /-- The output trace (R10), oldest event first. -/
  trace : List Event
  /-- Environment: the words still to be offered (R31, R93; log 2). -/
  offers : Offers
  /-- Environment: block reset is asserted (R230; log 14). -/
  resetReq : Bool
  /-- The model's own counter: how many block resets there have been (log 5). -/
  resets : Nat
  deriving DecidableEq, Repr

/-- The parameters of the run that starts at reset: the OPEN ones free, the others at the spec's values (R7, R232). -/
def resetParams : Params := specParams Config.morePorts Config.initialHandle.val openFCpuHz openTPowerOnNs

/-- Right after block reset (R34, R230): `ACTIVE` the initial handle, `COL` 0, `SAVED` unspecified, `MISUSE` 0, `SEQ` idle,
no mark, and no port register written. -/
def State.reset : State :=
  { par := resetParams
    pe := { active := resetParams.initialHandle, ports := [] }
    ct := { col := 0#8, saved := resetParams.colVal (Config.savedDraw 0), misuse := false }
    seq := .idle
    refusals := []
    trace := []
    offers := .host []
    resetReq := false
    resets := 0 }

end Sys2Proof.Machine
end

