-- ==== Sys2Proof/Machine/Ops.lean ====
section
/-! DEFINITION. The named operations over the port registers (20_memory R50, R54), the output trace, and the sequencer's
shared operations: raising a fault, block reset, refusing a word. -/

namespace Sys2Proof.Machine

/-! ### The port register space (R50): two byte registers for each handle -/

/-- The key of `(h, DATA)` (log 8). -/
def dataKey (h : Nat) : Nat := 2 * h

/-- The key of `(h, DIR)` (log 8). -/
def dirKey (h : Nat) : Nat := 2 * h + 1

/-- What the list holds for a key. -/
def portGet : List Host.Cell → Nat → Option Byte
  | [], _ => none
  | (k, b) :: rest, a => if k = a then some b else portGet rest a

/-- What a register nobody has written reads as: the free draw of U3 (log 4). It is not a listed value. -/
def unlistedPort (a : Nat) : Byte := Config.portDraw a

/-- One whole-register read (R54): no side effect, the value last written. -/
def portRead (m : List Host.Cell) (a : Nat) : Byte :=
  match portGet m a with
  | some b => b
  | none => unlistedPort a

/-- One whole-register write (R54): the cell takes its place in rising order of the keys. -/
def portWrite : List Host.Cell → Nat → Byte → List Host.Cell
  | [], a, v => [(a, v)]
  | (k, b) :: rest, a, v =>
    if a < k then (a, v) :: (k, b) :: rest
    else if a = k then (a, v) :: rest
    else (k, b) :: portWrite rest a v

/-- The canonical form, above a key: keys strictly rising. An unlisted register reads as a value no list entry is (log 4). -/
def portsAbove (lo : Option Nat) : List Host.Cell → Bool
  | [] => true
  | (k, _) :: rest => (match lo with | some l => decide (l < k) | none => true) && portsAbove (some k) rest

/-- The canonical form of the port memory. -/
def portsWf (m : List Host.Cell) : Bool := portsAbove none m

/-- `DATA[h]`. -/
def Pe.data (p : Pe) (h : Nat) : Byte := portRead p.ports (dataKey h)

/-- `DIR[h]`. -/
def Pe.dir (p : Pe) (h : Nat) : Byte := portRead p.ports (dirKey h)

/-- `DATA[ACTIVE]`, written `d` in 40_protocol_engine. -/
def Pe.d (p : Pe) : Byte := p.data p.active

/-- `MemWrite((h, DATA), 1, v)` and its one event (R9). -/
def Pe.writeData (p : Pe) (h : Nat) (v : Byte) : Pe × List Event :=
  ({ p with ports := portWrite p.ports (dataKey h) v }, [.wrData h v])

/-- `MemWrite((h, DIR), 1, v)` and its one event (R9). -/
def Pe.writeDir (p : Pe) (h : Nat) (v : Byte) : Pe × List Event :=
  ({ p with ports := portWrite p.ports (dirKey h) v }, [.wrDir h v])

/-! ### The words still to be offered (R31, R93) -/

/-- The next word offered, and the rest. Only a host word comes from a host, only a `PE12` word to the PE alone (R93). -/
def Offers.pop : Offers → Option (CodeWord × Offers)
  | .host [] => none
  | .host (w :: ws) => some (.host w, .host ws)
  | .peAlone [] => none
  | .peAlone (w :: ws) => some (.pe w, .peAlone ws)

/-- A word put first. One of the other interface makes the model that of its own interface (log 2). -/
def Offers.push (o : Offers) (c : CodeWord) : Offers :=
  match c, o with
  | .host w, .host ws => .host (w :: ws)
  | .host w, .peAlone _ => .host [w]
  | .pe w, .peAlone ws => .peAlone (w :: ws)
  | .pe w, .host _ => .peAlone [w]

/-- Whether the PE is modelled alone. -/
def Offers.isPe : Offers → Bool
  | .host _ => false
  | .peAlone _ => true

/-! ### The sequencer's shared operations -/

/-- `raise Fault(reason)` (R201, R206): `SEQ <- Faulted(reason)`. It saves nothing, enters no handler and writes nothing
else: the faulting request has no partial effect. The only return from it is `State.blockReset`. -/
def State.raise (s : State) (f : Fault) : State := { s with seq := .faulted f }

/-- `refuse(reason)` (R203): the mark is set and the word recorded; nothing else of the block changes. -/
def State.refuse (s : State) (r : Reject) : State := { s with refusals := s.refusals ++ [r] }

/-- Block reset (R230): the only way out of `Faulted` (R206). It writes no port register and appends no event; the trace so
far stands (log 22), `SAVED` is any value (log 5), and the words still to be offered are the host's and stay: DESIGN CHOICE,
R230 says nothing of them (log 31). -/
def State.blockReset (s : State) : State :=
  { s with
    pe := { s.pe with active := s.par.initialHandle }
    ct := { col := 0#8, saved := s.par.colVal (Config.savedDraw (s.resets + 1)), misuse := false }
    seq := .idle
    refusals := []
    resetReq := false
    resets := s.resets + 1 }

end Sys2Proof.Machine
end

