-- ==== Sys2Proof/Machine/Operands.lean ====
section
/-! DEFINITION. Operand forms: the nibbles of a byte (20_memory R55), the display address and the address command (R51,
41 R142), digits (R149), and the handle operand (R82). -/

namespace Sys2Proof.Machine

/-- A nibble at `DATA_NIBBLE_BITS` (R71). -/
def inPlace (p : Params) (n : Nibble) : Byte := n.setWidth 8 <<< p.nibbleLow

/-- The high nibble at `DATA_NIBBLE_BITS`: with R7's layout `b & 0xF0` (R103). -/
def hiInPlace (p : Params) (b : Byte) : Byte := inPlace p (b.extractLsb' 4 4)

/-- The low nibble at `DATA_NIBBLE_BITS`: with R7's layout `((b & 0x0F) << 4) mod 256` (R103). -/
def loInPlace (p : Params) (b : Byte) : Byte := inPlace p (b.extractLsb' 0 4)

/-- The DDRAM address of a logical position: `((row << ROW_SHIFT) | column) mod 256` (R51). -/
def ddramAddr (p : Params) (row col : Byte) : Byte := (row <<< p.rowShift) ||| col

/-- `addrcmd(r, c)` (R142). -/
def addrCmd (p : Params) (r c : Byte) : Byte := p.addrCmdPrefix ||| ddramAddr p r c

/-- `MOVE`'s precondition: row in {0,1}, column in [0,16), by `ROWS` and `COLS` (R142; log 18). -/
def inRange (p : Params) (r c : Byte) : Bool := decide (r.toNat < p.rows) && decide (c.toNat < p.cols)

/-- The character of a decimal digit: `CHAR_ZERO + d` (R77, R149). -/
def digitChar (p : Params) (d : Byte) : Byte := p.charZero + d

/-- The two characters `NUMBER n` writes (R149, R150). -/
def numberChars (p : Params) (n : Byte) : Byte × Byte :=
  if n.toNat ≤ 9 then (digitChar p n, p.charSpace)
  else if n.toNat ≤ 19 then (digitChar p 1#8, digitChar p (n - 10#8))
  else (p.charX, p.charX)

/-- How many spaces `CLRLINE c` writes: `max(0, COLS - c)`, the 16 of R151 being `COLS` (log 18). -/
def clrlineCount (p : Params) (c : Byte) : Nat := p.cols - c.toNat

/-- A handle operand is the handle's number (R82), read at `OPERAND_WIDTH`. -/
def handleOf (p : Params) (h : Byte) : Nat := (p.operand h).toNat

end Sys2Proof.Machine
end

