-- ==== Sys2Proof/Machine/Flags.lean ====
section
/-! DEFINITION. The marks. The block has no status flags and no condition codes (10_state R32); what the model keeps are the
`MISUSE` mark (R27, R202), the refusal mark (60 R203) and the fault, with their cause codes (R204), and what a host sees (R31). -/

namespace Sys2Proof.Machine

/-- `mark_misuse()` (R202): sets the sticky mark; nothing but block reset clears it. -/
def Ct.markMisuse (c : Ct) : Ct := { c with misuse := true }

/-- R204's causes. -/
inductive Cause where
  | invalidHandle (h : Nat)
  | misuse
  | reservedRequest (w : BitVec 24)
  | reservedPE (w : BitVec 12)
  deriving DecidableEq, Repr

/-- R204's numbering. -/
def Cause.code : Cause → Nat
  | .invalidHandle _ => 1
  | .misuse => 2
  | .reservedRequest _ => 3
  | .reservedPE _ => 4

/-- The cause of a fault. -/
def faultCause : Fault → Cause
  | .invalidHandle h => .invalidHandle h

/-- The cause of a refused word. -/
def rejectCause : Reject → Cause
  | .reservedRequest w => .reservedRequest w
  | .reservedPE w => .reservedPE w

/-- Every cause the state shows: the fault the block is stuck in, the misuse mark, the refused words (R204). -/
def State.causes (s : State) : List Cause :=
  (match s.seq with | .faulted f => [faultCause f] | .idle => [] | .busy _ _ _ => []) ++
    (if s.ct.misuse then [.misuse] else []) ++ s.refusals.map rejectCause

/-- The refusal mark (R203). -/
def State.refusalMark (s : State) : Bool := !s.refusals.isEmpty

/-- What the host sees (R31, R32): busy from acceptance until `SEQ` returns to `Idle` (log 23). -/
def State.hostSeesBusy (s : State) : Bool := decide (s.seq ≠ .idle)

end Sys2Proof.Machine
end

