-- ==== Sys2Proof/Machine/Micro.lean ====
section
/-! DEFINITION. The micro-operations (40_protocol_engine R100), the PE's micro-sequences (R101, R103, R104) and transactions
(R111 to R114), and how a request is served: the list it expands to, and its run to completion (10_state R30, R31). -/

namespace Sys2Proof.Machine

/-! ### One micro-operation -/

/-- R100's table: the PE after a micro-operation, and exactly the events it appends. `a` is `ACTIVE`, `d` is `DATA[a]`.
What is written, and shown in the event, is what a register of `PORT_WIDTH` bits keeps (log 33). -/
def PeOp.run (p : Params) (op : PeOp) (q : Pe) : Pe × List Event :=
  match op with
  | .eHi => q.writeData q.active (p.portVal (q.d ||| p.eMask))
  | .eLo => q.writeData q.active (p.portVal (q.d &&& ~~~p.eMask))
  | .rsHi => q.writeData q.active (p.portVal (q.d ||| p.rsMask))
  | .rsLo => q.writeData q.active (p.portVal (q.d &&& ~~~p.rsMask))
  | .put v => q.writeData q.active (p.portVal (v ||| (q.d &&& ~~~p.nibbleMask)))
  | .zero => q.writeData q.active 0x00#8
  | .dirCfg h => q.writeDir h (p.portVal (q.dir h ||| p.dirMask))
  | .setAct h => ({ q with active := h }, [])
  | .wait k => (q, [.wait k])

/-- The CT's registers after one of its updates (R142, R144, R153, R202). Nothing else writes `SAVED`, so it keeps the last
saved column between `CLRFROM` requests: DESIGN CHOICE, R26 leaves its value then unspecified (log 28). -/
def CtOp.run (p : Params) (op : CtOp) (c : Ct) : Ct :=
  match op with
  | .setCol v => { c with col := p.colVal v }
  | .incCol => { c with col := p.colVal (c.col + 1#8) }
  | .saveCol => { c with saved := c.col }
  | .markMisuse => c.markMisuse

/-- One step of the sequencer's work: the events join the output trace in order (R9, R57). -/
def MicroOp.run (m : MicroOp) (s : State) : State :=
  match m with
  | .pe op => { s with pe := (op.run s.par s.pe).1, trace := s.trace ++ (op.run s.par s.pe).2 }
  | .ct op => { s with ct := op.run s.par s.ct }

/-- Micro-operations strictly in order (R57). -/
def State.runMicro (s : State) : List MicroOp → State
  | [] => s
  | m :: rest => (m.run s).runMicro rest

/-! ### The PE's micro-sequences and transactions -/

/-- `NIB(v)`, for `v` with all bits but `DATA_NIBBLE_BITS` clear (R101). -/
def nib (v : Byte) : List PeOp := [.eHi, .put v, .eLo]

/-- `SEND_BYTE(b)` (R103). -/
def sendByte (p : Params) (b : Byte) : List PeOp :=
  nib (hiInPlace p b) ++ [.wait .gap] ++ nib (loInPlace p b) ++ [.wait .byte]

/-- `SEND_CMD(b)` (R104). -/
def sendCmd (p : Params) (b : Byte) : List PeOp := [.rsLo] ++ sendByte p b ++ [.rsHi, .wait .cmd]

/-- The micro-operations of a transaction (R111 to R114), with `a` the value of `ACTIVE`. `PE.SELECT`'s check of the handle
is made before any of them (R201): `selectFault`. -/
def txnOps (p : Params) (a : Nat) : Txn → List PeOp
  | .cmd b => sendCmd p b
  | .data b => sendByte p b
  | .portInit => [.dirCfg a, .zero]
  | .select h => [.setAct (handleOf p h), .dirCfg (handleOf p h)]

/-- `if h not in Handle: raise Fault(InvalidHandle)` (R114). -/
def selectFault (p : Params) (h : Byte) : Option Fault :=
  if p.isHandle (handleOf p h) then none else some (.invalidHandle (handleOf p h))

/-! ### What a request expands to -/

/-- One step of a host request's pseudocode: a PE transaction, or an update of the CT's registers (R140 to R153). -/
inductive CtStep where
  | txn (t : Txn)
  | upd (op : CtOp)
  deriving DecidableEq, Repr

/-- The micro-operations of a step, with `a` the value of `ACTIVE` when the request is accepted: `ACTIVE` changes only in
`PE.SELECT`, which no request follows with another transaction (R156). -/
def CtStep.micro (p : Params) (a : Nat) : CtStep → List MicroOp
  | .txn t => (txnOps p a t).map .pe
  | .upd op => [.ct op]

/-- The CT's registers after the updates among some steps (R155). -/
def Ct.after (p : Params) (c : Ct) : List CtStep → Ct
  | [] => c
  | .txn _ :: rest => c.after p rest
  | .upd op :: rest => (op.run p c).after p rest

/-- The transactions among some steps, in order (R155, R156). -/
def txnsOf : List CtStep → List Txn
  | [] => []
  | .txn t :: rest => t :: txnsOf rest
  | .upd _ :: rest => txnsOf rest

/-- A request's pseudocode: a function of the CT's registers on entry and of nothing of the PE (R155). Its conditional
parts are decided when the expansion is computed (R30). -/
abbrev Script := Ct → List CtStep

/-- One pseudocode after another: the second sees the registers the first leaves. -/
def Script.andThen (p : Params) (a b : Script) : Script := fun c => a c ++ b (c.after p (a c))

/-- No step. -/
def Script.nothing : Script := fun _ => []

/-- One transaction. -/
def Script.txn (t : Txn) : Script := fun _ => [.txn t]

/-- One register update. -/
def Script.upd (op : CtOp) : Script := fun _ => [.upd op]

/-- The micro-operation list a request expands to (R30). -/
def State.expand (s : State) (sc : Script) : List MicroOp := (sc s.ct).flatMap (CtStep.micro s.par s.pe.active)

/-! ### Serving a request -/

/-- An accepted request carried through (R31, R201): the fault of its handle check, raised before any micro-operation, or its
whole expansion, after which `SEQ` is `Idle` again. -/
def State.carryOut (s : State) (fault : Option Fault) (sc : Script) : State :=
  match fault with
  | some f => s.raise f
  | none => s.runMicro (s.expand sc)

/-- A request of the block (R31). Idle: it is accepted and carried through. Busy: it is not accepted and waits at the host
(log 11). Faulted: the block is stuck (R201). -/
def State.serve (s : State) (fault : Option Fault) (sc : Script) : Host.Outcome State Fault Refusal :=
  match s.seq with
  | .idle => .next (s.carryOut fault sc)
  | .busy _ _ _ => .next s
  | .faulted f => .fault f

end Sys2Proof.Machine
end

