-- ==== Sys2Proof/Machine/CursorTracker.lean ====
section
/-! DEFINITION. The host requests (41_cursor_tracker R140 to R156). Each has its pseudocode as a `Script` and its meaning. -/

namespace Sys2Proof.Machine

/-! ### Pseudocode -/

/-- `INIT` (R140): the port, the five commands, `COL <- 0` last (C4). -/
def initScript (p : Params) : Script := fun _ =>
  [ .txn .portInit,
    .txn (.cmd p.opHandshake),
    .txn (.cmd p.opFuncset),
    .txn (.cmd p.opEntry),
    .txn (.cmd p.opDispon),
    .txn (.cmd p.opClear),
    .upd (.setCol 0#8) ]

/-- `SETCFG h`, the handle being a member (R141). -/
def setcfgScript (h : Byte) : Script := .txn (.select h)

/-- `MOVE r, c` (R142): no bounds check, only the mark. -/
def moveScript (p : Params) (r c : Byte) : Script := fun _ =>
  (if inRange p r c then [] else [.upd .markMisuse]) ++ [.txn (.cmd (addrCmd p r c)), .upd (.setCol c)]

/-- `PUTC ch` (R144): the wrap test is the equality with `WRAP_COL`, made before the character is sent. -/
def putcScript (p : Params) (ch : Byte) : Script := fun ct =>
  (if ct.col = p.wrapCol then moveScript p 1#8 0#8 ct else []) ++ [.txn (.data ch), .upd .incCol]

/-- `CLEAR` (R147): `COL` is not written. -/
def clearScript (p : Params) : Script := .txn (.cmd p.opClear)

/-- `HOME` (R148): `COL` is not written. -/
def homeScript (p : Params) : Script := .txn (.cmd p.opHome)

/-- `NUMBER n` (R149): two characters through `PUTC`. -/
def numberScript (p : Params) (n : Byte) : Script :=
  Script.andThen p (putcScript p (numberChars p n).1) (putcScript p (numberChars p n).2)

/-- `k` spaces through `PUTC` (R151's loop). -/
def spacesScript (p : Params) : Nat → Script
  | 0 => .nothing
  | k + 1 => Script.andThen p (putcScript p p.charSpace) (spacesScript p k)

/-- `CLRLINE c` (R151): the count is set by the operand, not by `COL` (D16). -/
def clrlineScript (p : Params) (c : Byte) : Script := spacesScript p (clrlineCount p c)

/-- `do(MOVE x, SAVED)` (R153): a full `MOVE` with the saved column (D17). -/
def restoreScript (p : Params) (x : Byte) : Script := fun ct => moveScript p x ct.saved ct

/-- R153's cascade: clearing from the top row clears the bottom row as well. -/
def cascadeScript (p : Params) (x : Byte) : Script :=
  if x = 0#8 then Script.andThen p (moveScript p 1#8 0#8) (clrlineScript p 0#8) else .nothing

/-- `CLRFROM x, y` (R153). -/
def clrfromScript (p : Params) (x y : Byte) : Script :=
  Script.andThen p (.upd .saveCol) <|
    Script.andThen p (moveScript p x y) <|
      Script.andThen p (clrlineScript p y) <|
        Script.andThen p (cascadeScript p x) (restoreScript p x)

/-! ### Meanings: each reads its operands at `OPERAND_WIDTH` (R7, R80) -/

/-- `INIT` (R140, R231). -/
def execInit (s : State) : Host.Outcome State Fault Refusal := s.serve none (initScript s.par)

/-- `SETCFG h` (R141): `Fault(InvalidHandle)` if `h` is no handle, with nothing written (R201). -/
def execSetcfg (h : Byte) (s : State) : Host.Outcome State Fault Refusal :=
  s.serve (selectFault s.par h) (setcfgScript h)

/-- `MOVE r, c` (R142). -/
def execMove (r c : Byte) (s : State) : Host.Outcome State Fault Refusal :=
  s.serve none (moveScript s.par (s.par.operand r) (s.par.operand c))

/-- `PUTC ch` (R144). -/
def execPutc (ch : Byte) (s : State) : Host.Outcome State Fault Refusal :=
  s.serve none (putcScript s.par (s.par.operand ch))

/-- `CLEAR` (R147). -/
def execClear (s : State) : Host.Outcome State Fault Refusal := s.serve none (clearScript s.par)

/-- `HOME` (R148). -/
def execHome (s : State) : Host.Outcome State Fault Refusal := s.serve none (homeScript s.par)

/-- `NUMBER n` (R149). -/
def execNumber (n : Byte) (s : State) : Host.Outcome State Fault Refusal :=
  s.serve none (numberScript s.par (s.par.operand n))

/-- `CLRLINE c` (R151). -/
def execClrline (c : Byte) (s : State) : Host.Outcome State Fault Refusal :=
  s.serve none (clrlineScript s.par (s.par.operand c))

/-- `CLRFROM x, y` (R153). -/
def execClrfrom (x y : Byte) (s : State) : Host.Outcome State Fault Refusal :=
  s.serve none (clrfromScript s.par (s.par.operand x) (s.par.operand y))

end Sys2Proof.Machine
end

