-- ==== Sys2Proof/Machine/ProtocolEngine.lean ====
section
/-! DEFINITION. The PE transactions (40_protocol_engine R110 to R114), as inputs of the protocol engine modelled alone
(30_encoding R93). -/

namespace Sys2Proof.Machine

/-- `PE.CMD b`: `SEND_CMD(b)` (R111). -/
def peCmdScript (b : Byte) : Script := .txn (.cmd b)

/-- `PE.DATA b`: `SEND_BYTE(b)`, RS not written (R112). -/
def peDataScript (b : Byte) : Script := .txn (.data b)

/-- `PE.PORTINIT`: `DIRCFG(a)`, `ZERO` (R113). -/
def pePortinitScript : Script := .txn .portInit

/-- `PE.SELECT h`, the handle being a member: `SETACT(h)`, `DIRCFG(h)` (R114). -/
def peSelectScript (h : Byte) : Script := .txn (.select h)

/-- `PE.CMD b` (R111). -/
def execPeCmd (b : Byte) (s : State) : Host.Outcome State Fault Refusal := s.serve none (peCmdScript b)

/-- `PE.DATA b` (R112). -/
def execPeData (b : Byte) (s : State) : Host.Outcome State Fault Refusal := s.serve none (peDataScript b)

/-- `PE.PORTINIT` (R113). -/
def execPePortinit (s : State) : Host.Outcome State Fault Refusal := s.serve none pePortinitScript

/-- `PE.SELECT h` (R114): `Fault(InvalidHandle)` if `h` is no handle, with nothing written. -/
def execPeSelect (h : Byte) (s : State) : Host.Outcome State Fault Refusal :=
  s.serve (selectFault s.par h) (peSelectScript h)

end Sys2Proof.Machine
end

