-- ==== Sys2Proof/Machine/Dispatch.lean ====
section
/-! DEFINITION. The dispatch: one arm per constructor of `Instr`. -/

namespace Sys2Proof.Machine

def exec (i : Instr) (s : State) : Host.Outcome State Fault Refusal :=
  match i with
  | .init => Sys2Proof.Machine.execInit s
  | .setcfg h => Sys2Proof.Machine.execSetcfg h s
  | .move r c => Sys2Proof.Machine.execMove r c s
  | .putc ch => Sys2Proof.Machine.execPutc ch s
  | .clear => Sys2Proof.Machine.execClear s
  | .home => Sys2Proof.Machine.execHome s
  | .number n => Sys2Proof.Machine.execNumber n s
  | .clrline c => Sys2Proof.Machine.execClrline c s
  | .clrfrom x y => Sys2Proof.Machine.execClrfrom x y s
  | .peCmd b => Sys2Proof.Machine.execPeCmd b s
  | .peData b => Sys2Proof.Machine.execPeData b s
  | .pePortinit => Sys2Proof.Machine.execPePortinit s
  | .peSelect h => Sys2Proof.Machine.execPeSelect h s

end Sys2Proof.Machine
end

