-- ==== Sys2Proof/Machine/Sequencer.lean ====
section
/-! DEFINITION. The sequencer at the grain of the spec: one micro-operation a step (10_state R30, R31). `Machine.step` serves
a whole request in one step from `Idle`; here the same request is accepted, and then performed one micro-operation a step
(log 1). -/

namespace Sys2Proof.Machine

/-- The pseudocode of each request, one case per constructor (R156). -/
def scriptOf (p : Params) : Instr → Script
  | .init => initScript p
  | .setcfg h => setcfgScript h
  | .move r c => moveScript p (p.operand r) (p.operand c)
  | .putc ch => putcScript p (p.operand ch)
  | .clear => clearScript p
  | .home => homeScript p
  | .number n => numberScript p (p.operand n)
  | .clrline c => clrlineScript p (p.operand c)
  | .clrfrom x y => clrfromScript p (p.operand x) (p.operand y)
  | .peCmd b => peCmdScript b
  | .peData b => peDataScript b
  | .pePortinit => pePortinitScript
  | .peSelect h => peSelectScript h

/-- The fault a request raises before any of its micro-operations (R201): only `SETCFG` and `PE.SELECT` can (R204). -/
def faultOf (p : Params) : Instr → Option Fault
  | .setcfg h => selectFault p h
  | .peSelect h => selectFault p h
  | .init => none
  | .move _ _ => none
  | .putc _ => none
  | .clear => none
  | .home => none
  | .number _ => none
  | .clrline _ => none
  | .clrfrom _ _ => none
  | .peCmd _ => none
  | .peData _ => none
  | .pePortinit => none

/-- Acceptance (R31): the fault of R201, or `SEQ <- Busy(r, 0)` with the expansion computed now (R30). A request that faults
goes from `Idle` to `Faulted` in this very step, with no `Busy(r, 0)` in between: DESIGN CHOICE, the spec does not say in which
step the fault falls (log 30). -/
def State.accept (s : State) (i : Instr) : State :=
  match faultOf s.par i with
  | some f => s.raise f
  | none => { s with seq := .busy i 0 (s.expand (scriptOf s.par i)) }

/-- One step of a busy sequencer (R30): micro-operation `i`, then `Busy(r, i+1)`, or `Idle` after the last. A request that
expands to nothing goes to `Idle` (log 12). -/
def State.advance (s : State) (r : Instr) (i : Nat) (ops : List MicroOp) : State :=
  match ops[i]? with
  | some m => { m.run s with seq := if i + 1 < ops.length then .busy r (i + 1) ops else .idle }
  | none => { s with seq := .idle }

/-- A word offered to an idle block, taken from the words to be offered: what it decodes to is given to `k`; a reserved word
is refused, performs nothing and leaves the block idle (R203, R205; that it is taken as well is log 9). -/
def State.takeOffer (s : State) (w : CodeWord) (rest : Offers)
    (k : Instr → State → Host.Outcome State Fault Refusal) : Host.Outcome State Fault Refusal :=
  match decode w with
  | .ok i => k i { s with offers := rest }
  | .error r => .next (State.refuse { s with offers := rest } r)

/-- A step, with `k` what is done with the request of a decoded word. Block reset is taken first (R230; log 14). From `Idle`
the next offered word is taken (R31, R205), and with nothing offered the block stays idle (R230; log 3). From `Busy` one
micro-operation is performed (R30). From `Faulted` there is no step (R201). -/
def State.stepWith (s : State) (k : Instr → State → Host.Outcome State Fault Refusal) :
    Host.Outcome State Fault Refusal :=
  if s.resetReq then .next s.blockReset
  else
    match s.seq with
    | .faulted f => .fault f
    | .busy r i ops => .next (s.advance r i ops)
    | .idle =>
      match s.offers.pop with
      | none => .next s
      | some (w, rest) => s.takeOffer w rest k

/-- One step of the sequencer, at the spec's grain: a request is accepted (R31), then performed one micro-operation a step. -/
def microStep (s : State) : Host.Outcome State Fault Refusal := s.stepWith fun i t => .next (t.accept i)

end Sys2Proof.Machine
end

