-- ==== Sys2Proof/Machine/Step.lean ====
section
/-! DEFINITION. The step of the machine, and how an instruction is placed where the step fetches it. -/

namespace Sys2Proof.Machine

/-- One step. From `Idle` it serves the request of the next offered word to completion (R31; log 1); the rest is
`State.stepWith`, the same as at the spec's grain. -/
def step (s : State) : Host.Outcome State Fault Refusal := s.stepWith exec

/-- The word is put first among the words of its interface, where the step of an idle block takes its next request; a `PE12`
word makes the PE the thing modelled (R93; log 2). -/
def State.withFetchWord (s : State) (nbits w : Nat) : State :=
  match tableCodeWord nbits w with
  | some c => { s with offers := s.offers.push c }
  | none => s

end Sys2Proof.Machine
end

