-- ==== Sys2Proof/Machine/Assembler.lean ====
section
/-! DEFINITION. The assembler (30_encoding R87, R88). A source line is read from its characters, its operand count and
literals are checked, and it becomes requests. Points of the lexical form R87 leaves open are log 25. -/

namespace Sys2Proof.Machine

/-! ### From checked source to requests -/

/-- The request of a mnemonic and its operands, in the order of R81's columns A then B (R87). -/
def assembleReq : HostOp → List Byte → Option Instr
  | .init, [] => some .init
  | .setcfg, [h] => some (.setcfg h)
  | .move, [r, c] => some (.move r c)
  | .putc, [ch] => some (.putc ch)
  | .clear, [] => some .clear
  | .home, [] => some .home
  | .number, [n] => some (.number n)
  | .clrline, [c] => some (.clrline c)
  | .clrfrom, [x, y] => some (.clrfrom x y)
  | _, _ => none

/-- A well-formed source line as requests; an ill-formed one is an assembly error (R87, R88). -/
def assemble (l : SourceLine) : Option (List Instr) :=
  if l.wellFormed then
    match l with
    | .req op operands => (assembleReq op (operands.map (BitVec.ofNat 8))).map fun i => [i]
    | .write bytes => some (bytes.map fun b => .putc (BitVec.ofNat 8 b))
  else none

/-! ### Reading a line -/

/-- Blanks between words. -/
def isBlank (c : Char) : Bool := c == ' ' || c == '\t'

/-- Drop leading blanks. -/
def skipBlanks : List Char → List Char
  | [] => []
  | c :: cs => if isBlank c then skipBlanks cs else c :: cs

/-- Nothing is left but blanks and a comment (`;` starts one, R87). -/
def endOfLine (cs : List Char) : Bool :=
  match skipBlanks cs with
  | [] => true
  | c :: _ => c == ';'

/-- The value of a hexadecimal digit. -/
def hexDigit (c : Char) : Option Nat :=
  let n := c.toNat
  if 48 ≤ n ∧ n ≤ 57 then some (n - 48)
  else if 65 ≤ n ∧ n ≤ 70 then some (n - 55)
  else if 97 ≤ n ∧ n ≤ 102 then some (n - 87)
  else none

/-- The value of a decimal digit. -/
def decDigit (c : Char) : Option Nat :=
  let n := c.toNat
  if 48 ≤ n ∧ n ≤ 57 then some (n - 48) else none

/-- Read on a number in a base: what it is worth and what is left. -/
def readDigits (base : Nat) (digit : Char → Option Nat) (acc : Nat) : List Char → Nat × List Char
  | [] => (acc, [])
  | c :: cs =>
    match digit c with
    | some d => readDigits base digit (acc * base + d) cs
    | none => (acc, c :: cs)

/-- An operand: a decimal literal, a `0x` hexadecimal literal or a character literal (R87). A character stands for its Unicode
code point, so one above 255 is an assembly error: DESIGN CHOICE for characters beyond ASCII, whose 8-bit code R8 leaves open
(log 25). -/
def readOperand (cs : List Char) : Option (Nat × List Char) :=
  match skipBlanks cs with
  | '\'' :: c :: '\'' :: rest => some (c.toNat, rest)
  | '0' :: 'x' :: d :: rest =>
    match hexDigit d with
    | some v => some (readDigits 16 hexDigit v rest)
    | none => none
  | d :: rest =>
    match decDigit d with
    | some v => some (readDigits 10 decDigit v rest)
    | none => none
  | [] => none

/-- More operands, separated by commas, until something else stands there. `fuel` bounds their number. -/
def readMore : Nat → List Char → Option (List Nat × List Char)
  | 0, _ => none
  | fuel + 1, cs =>
    match skipBlanks cs with
    | ',' :: rest =>
      match readOperand rest with
      | some (v, rest') =>
        match readMore fuel rest' with
        | some (vs, left) => some (v :: vs, left)
        | none => none
      | none => none
    | left => some ([], left)

/-- Operands separated by commas (R87). -/
def readOperands (cs : List Char) : Option (List Nat × List Char) :=
  match readOperand cs with
  | some (v, rest) =>
    match readMore (rest.length + 1) rest with
    | some (vs, left) => some (v :: vs, left)
    | none => none
  | none => none

/-- The bytes of a string literal up to its closing quote (R88), each character's Unicode code point as in `readOperand`
(log 25). -/
def readString : List Char → Option (List Nat × List Char)
  | [] => none
  | '"' :: rest => some ([], rest)
  | c :: rest =>
    match readString rest with
    | some (vs, left) => some (c.toNat :: vs, left)
    | none => none

/-- The text of `WRITE`: a string literal or a bracketed list of values, either of which may be empty (R88). -/
def readText (cs : List Char) : Option (List Nat × List Char) :=
  match skipBlanks cs with
  | '"' :: rest => readString rest
  | '[' :: rest =>
    match skipBlanks rest with
    | ']' :: left => some ([], left)
    | _ =>
      match readOperands rest with
      | some (vs, left) =>
        match skipBlanks left with
        | ']' :: left' => some (vs, left')
        | _ => none
      | none => none
  | _ => none

/-- The mnemonics (R87, R11). -/
def mnemonicOf (w : List Char) : Option HostOp :=
  if w = "INIT".toList then some .init
  else if w = "SETCFG".toList then some .setcfg
  else if w = "MOVE".toList then some .move
  else if w = "PUTC".toList then some .putc
  else if w = "CLEAR".toList then some .clear
  else if w = "HOME".toList then some .home
  else if w = "NUMBER".toList then some .number
  else if w = "CLRLINE".toList then some .clrline
  else if w = "CLRFROM".toList then some .clrfrom
  else none

/-- A mnemonic's letters are capitals. -/
def isCapital (c : Char) : Bool := decide (65 ≤ c.toNat) && decide (c.toNat ≤ 90)

/-- A mnemonic ends at a blank, at a comment or with the line. -/
def endsWord : List Char → Bool
  | [] => true
  | c :: _ => isBlank c || c == ';'

/-- The source line a text spells; `none` is an assembly error, `some none` a line with no request. -/
def readLine (cs : List Char) : Option (Option SourceLine) :=
  if endOfLine cs then some none
  else
    let word := (skipBlanks cs).takeWhile isCapital
    let rest := (skipBlanks cs).dropWhile isCapital
    if !endsWord rest then none
    else if word = "WRITE".toList then
      match readText rest with
      | some (vs, left) => if endOfLine left then some (some (.write vs)) else none
      | none => none
    else
      match mnemonicOf word with
      | none => none
      | some op =>
        if endOfLine rest then some (some (.req op []))
        else
          match readOperands rest with
          | some (vs, left) => if endOfLine left then some (some (.req op vs)) else none
          | none => none

/-- The requests of one line of text (R87, R88). -/
def assembleLine (text : String) : Option (List Instr) :=
  match readLine text.toList with
  | none => none
  | some none => some []
  | some (some l) => assemble l

end Sys2Proof.Machine
end

