-- ==== Sys2Proof/Machine/Bus.lean ====
section
/-! DEFINITION. The wire: what the LCD on a port receives (30_encoding R71 to R75), and what an HD44780 takes an instruction
byte for (R99, for information). The LCD's own state is not modelled (R33; log 16). -/

namespace Sys2Proof.Machine

/-! ### The port byte (R71) -/

/-- The `E` field, at `E_BIT`. -/
def eOf (p : Params) (v : Byte) : Bool := v.getLsbD p.eBit

/-- The `RS` field, at `RS_BIT`: `false` = instruction, `true` = data. -/
def rsOf (p : Params) (v : Byte) : Bool := v.getLsbD p.rsBit

/-- The `RSV` field in its place, with R7's layout bits 3:2. -/
def rsvOf (p : Params) (v : Byte) : Byte := v &&& p.rsvMask

/-- The `DB` field, at `DATA_NIBBLE_BITS`: with R7's layout port bit 4+i carries nibble bit i. -/
def dbOf (p : Params) (v : Byte) : Nibble := v.extractLsb' p.nibbleLow 4

/-! ### Latching (R73) -/

/-- What the LCD latches at a falling edge of E: the RS level and the nibble. -/
structure Latch where
  rs : Bool
  nib : Nibble
  deriving DecidableEq, Repr

/-- `prev[0] = 1` and `v[0] = 0` (R73). -/
def fallingEdge (p : Params) (prev v : Byte) : Bool := eOf p prev && !eOf p v

/-- What one write latches: the pair `(v[1], v[7:4])` at a falling edge, nothing otherwise (R73). -/
def latchOf (p : Params) (prev v : Byte) : List Latch := if fallingEdge p prev v then [⟨rsOf p v, dbOf p v⟩] else []

/-- What the LCD on port `h` latches from a list of events, `prev` being the value of `DATA[h]` before the first of them.
Only the events on port `h` reach it (R74). -/
def latches (p : Params) (h : Nat) (prev : Byte) : List Event → List Latch
  | [] => []
  | .wrData k v :: rest =>
    if k = h then latchOf p prev v ++ latches p h v rest else latches p h prev rest
  | .wrDir _ _ :: rest => latches p h prev rest
  | .wait _ :: rest => latches p h prev rest

/-- What the LCD on port `h` is known to receive, `dir` and `prev` being `DIR[h]` and `DATA[h]` before the first event: a latch
counts only while the block's lines of that port are outputs. Before that "the model records nothing for it" (70 R247). -/
def drivenLatches (p : Params) (h : Nat) (dir prev : Byte) : List Event → List Latch
  | [] => []
  | .wrData k v :: rest =>
    if k = h then (if dir &&& p.drivenMask = p.drivenMask then latchOf p prev v else []) ++ drivenLatches p h dir v rest
    else drivenLatches p h dir prev rest
  | .wrDir k v :: rest => drivenLatches p h (if k = h then v else dir) prev rest
  | .wait _ :: rest => drivenLatches p h dir prev rest

/-! ### The bus-byte stream (R75) -/

/-- A bus byte: `Cxx` when `rs` is false, `Dxx` when it is true. `mixed` is the mark `!` of 95_test_vectors: the two nibbles
were latched under different RS levels. -/
structure BusByte where
  rs : Bool
  byte : Byte
  mixed : Bool
  deriving DecidableEq, Repr

/-- The pair of R75. -/
def pairLatches (a b : Latch) : BusByte :=
  { rs := a.rs, byte := a.nib ++ b.nib, mixed := a.rs != b.rs }

/-- The 1st with the 2nd, the 3rd with the 4th, and so on; a nibble left over makes no byte. -/
def pairUp : List Latch → List BusByte
  | a :: b :: rest => pairLatches a b :: pairUp rest
  | [_] => []
  | [] => []

/-- The bus-byte stream of port `h` over some events, in nibble phase at their start (R75). -/
def busBytes (p : Params) (h : Nat) (prev : Byte) (evs : List Event) : List BusByte := pairUp (latches p h prev evs)

/-- `Cxx`. -/
def busC (b : Byte) : BusByte := ⟨false, b, false⟩

/-- `Dxx`. -/
def busD (b : Byte) : BusByte := ⟨true, b, false⟩

/-- The port lines the block drives are outputs: the bits of `DIR_MASK` are set in `DIR[h]` (R24). -/
def Pe.configured (q : Pe) (p : Params) (h : Nat) : Bool := q.dir h &&& p.drivenMask == p.drivenMask

/-! ### What an instruction byte means to an HD44780 (R99; log 24) -/

/-- R99's instruction classes. -/
inductive LcdInstr where
  | undefinedInstr
  | clearDisplay
  | returnHome
  | entryMode (increment shift : Bool)
  | displayControl (display cursor blink : Bool)
  | shiftInstr
  | functionSet (eightBit twoLines bigFont : Bool)
  | setCgram (a : BitVec 6)
  | setDdram (a : BitVec 7)
  deriving DecidableEq, Repr

/-- R99's table. No rule of the block depends on it. -/
def lcdClassify (b : Byte) : LcdInstr :=
  if b.getLsbD 7 then .setDdram (b.extractLsb' 0 7)
  else if b.getLsbD 6 then .setCgram (b.extractLsb' 0 6)
  else if b.getLsbD 5 then .functionSet (b.getLsbD 4) (b.getLsbD 3) (b.getLsbD 2)
  else if b.getLsbD 4 then .shiftInstr
  else if b.getLsbD 3 then .displayControl (b.getLsbD 2) (b.getLsbD 1) (b.getLsbD 0)
  else if b.getLsbD 2 then .entryMode (b.getLsbD 1) (b.getLsbD 0)
  else if b.getLsbD 1 then .returnHome
  else if b.getLsbD 0 then .clearDisplay
  else .undefinedInstr

end Sys2Proof.Machine
end

