-- ==== Sys2Proof/Machine/Layers.lean ====
section
/-! DEFINITION. The two units on their own (41 R155): the CT as a function of its registers and the request, the PE as a
function of its state and a transaction. -/

namespace Sys2Proof.Machine

/-- The CT (R155): from `(COL, SAVED, MISUSE, request)` the list of PE transactions and the new registers. It reads no port
state. -/
def ctServe (p : Params) (i : Instr) (c : Ct) : List Txn × Ct :=
  let steps := scriptOf p i c
  (txnsOf steps, c.after p steps)

/-- Some PE micro-operations in order: the new state and the events. -/
def peOps (p : Params) : List PeOp → Pe → Pe × List Event
  | [], q => (q, [])
  | op :: rest, q =>
    let q1 := op.run p q
    let q2 := peOps p rest q1.1
    (q2.1, q1.2 ++ q2.2)

/-- The PE (R155): from `(ACTIVE, port registers, PE transaction)` the new state and the events. It reads no CT state. A
transaction that faults writes nothing and appends nothing (R114, R201). -/
def peTxn (p : Params) (t : Txn) (q : Pe) : Pe × List Event :=
  match faultOf p t.toInstr with
  | some _ => (q, [])
  | none => peOps p (txnOps p q.active t) q

/-- Several transactions, one after another. -/
def peTxns (p : Params) : List Txn → Pe → Pe × List Event
  | [], q => (q, [])
  | t :: rest, q =>
    let q1 := peTxn p t q
    let q2 := peTxns p rest q1.1
    (q2.1, q1.2 ++ q2.2)

/-- The CT's registers after a request (R155). -/
def ctAfter (p : Params) (i : Instr) (c : Ct) : Ct := (ctServe p i c).2

/-- The transactions of a request (R156). -/
def ctTxns (p : Params) (i : Instr) (c : Ct) : List Txn := (ctServe p i c).1

end Sys2Proof.Machine
end

