-- ==== Sys2Proof/Machine/Timing.lean ====
section
/-! DEFINITION. Time: the lower bounds of the waits and nothing else (40 R105, R115, 70 R245, R250; log 17). The model keeps
no clock. Lengths of time are rational numbers of nanoseconds (log 29). -/

namespace Sys2Proof.Machine

/-- `T_k` in nanoseconds (R105). `T_GAP` is one cycle at `F_CPU`, which is OPEN and may be any positive rational number of
hertz (R7): that it is rational is DESIGN CHOICE (log 29). -/
def waitNs (p : Params) : WaitKind → Rat
  | .gap => p.tGapNs
  | .byte => p.tByteNs
  | .cmd => p.tCmdNs

/-- The minimum duration of some events: the sum of their waits' lower bounds (R250). -/
def minNs (p : Params) : List Event → Rat
  | [] => 0
  | .wait k :: rest => waitNs p k + minNs p rest
  | .wrDir _ _ :: rest => minNs p rest
  | .wrData _ _ :: rest => minNs p rest

/-- `C`, the minimum duration of a command (R250). -/
def cmdNs (p : Params) : Rat := p.tGapNs + p.tByteNs + p.tCmdNs

/-- `D`, the minimum duration of a data byte (R250). -/
def dataNs (p : Params) : Rat := p.tGapNs + p.tByteNs

/-- R115's columns: how many `WrData`, `WrDir` and `Wait` events of each kind. -/
structure EventCount where
  wrData : Nat
  wrDir : Nat
  gap : Nat
  byte : Nat
  cmd : Nat
  deriving DecidableEq, Repr

/-- One event more. -/
def EventCount.add (c : EventCount) : Event → EventCount
  | .wrData _ _ => { c with wrData := c.wrData + 1 }
  | .wrDir _ _ => { c with wrDir := c.wrDir + 1 }
  | .wait .gap => { c with gap := c.gap + 1 }
  | .wait .byte => { c with byte := c.byte + 1 }
  | .wait .cmd => { c with cmd := c.cmd + 1 }

/-- The counts of an event list. -/
def countEvents : List Event → EventCount
  | [] => ⟨0, 0, 0, 0, 0⟩
  | e :: rest => (countEvents rest).add e

end Sys2Proof.Machine
end

