-- ==== Sys2Proof/Machine/Write.lean ====
section
/-! DEFINITION. The pseudo-request `WRITE` (30_encoding R88, 41 R145): it has no word of its own and expands to one `PUTC`
per byte. -/

namespace Sys2Proof.Machine

/-- Some requests, each issued when the one before it has completed (R31). -/
def execAll : List Instr → State → Host.Outcome State Fault Refusal
  | [], s => .next s
  | i :: rest, s =>
    match exec i s with
    | .next t => execAll rest t
    | .fault f => .fault f
    | .refused r => .refused r

/-- R88's expansion of `WRITE s`. -/
def writeRequests (text : List Byte) : List Instr := text.map .putc

/-- `WRITE s` (R145). -/
def execWrite (text : List Byte) (s : State) : Host.Outcome State Fault Refusal := execAll (writeRequests text) s

/-- `i1 = (WRAP_COL - c) mod 256`, the modulus being that of `COL_WIDTH`: the index of the first character a wrap precedes
(R146). -/
def firstWrap (p : Params) (c : Byte) : Nat := (p.colVal (p.wrapCol - c)).toNat

/-- The wrap count `W` (R146): a wrap comes again after `WRAP_COL` characters (log 18). -/
def wrapCount (p : Params) (c : Byte) (len : Nat) : Nat :=
  if len ≤ firstWrap p c then 0 else 1 + (len - 1 - firstWrap p c) / p.wrapCol.toNat

/-- R146: a wrap comes before the character with this index. -/
def wrapsBefore (p : Params) (c : Byte) (index : Nat) : Bool :=
  decide (firstWrap p c ≤ index) && (index - firstWrap p c) % p.wrapCol.toNat == 0

end Sys2Proof.Machine
end

