-- ==== Sys2Proof/Safety.lean ====
section
/-! DEFINITION. What counts as a safe run, the invariants of the machine, and the terms in which claims are stated: the event
lists and final values the rules print (40 R111, R112), and running the sequencer for a number of its own steps. -/

namespace Sys2Proof.Machine

/-! ### Safe runs -/

/-- Not stuck in a fault: a premise of every claim (R201). -/
def State.notFaulted (s : State) : Bool :=
  match s.seq with
  | .idle => true
  | .busy _ _ _ => true
  | .faulted _ => false

/-- No fault and no refused word so far (R201, R203). -/
def State.safe (s : State) : Bool := s.notFaulted && !s.refusalMark

/-- What a claim about the LCD's address or contents must have beside its named assumptions `LCD_INIT_OK` and
`LCD_TIMING_OK`, which are about a device the spec does not model (R202, R233, R244; log 16). -/
def State.lcdClaimsAllowed (s : State) : Bool := s.safe && !s.ct.misuse

/-! ### The invariant of the machine -/

/-- A micro-operation names member handles only, and `PUT`'s operand has no bit outside `DATA_NIBBLE_BITS` (R100, R114). -/
def opOk (p : Params) : MicroOp → Bool
  | .pe (.dirCfg h) => p.isHandle h
  | .pe (.setAct h) => p.isHandle h
  | .pe (.put v) => v &&& ~~~p.nibbleMask == 0#8
  | .pe .eHi => true
  | .pe .eLo => true
  | .pe .rsHi => true
  | .pe .rsLo => true
  | .pe .zero => true
  | .pe (.wait _) => true
  | .ct _ => true

/-- The sequencer's position is one R30 and R201 allow: a busy one has a next micro-operation, or none at all when its
request expands to nothing; a faulted one names a handle that is no member. -/
def seqOk (p : Params) : Seq → Bool
  | .idle => true
  | .busy _ i ops => ops.all (opOk p) && (decide (i < ops.length) || (decide (i = 0) && ops.isEmpty))
  | .faulted (.invalidHandle h) => !p.isHandle h

/-- Only registers of member handles are listed: the port register space is `2 * N_PORTS` registers (R50). -/
def portsBelow (n : Nat) : List Host.Cell → Bool
  | [] => true
  | (k, _) :: rest => decide (k < 2 * n) && portsBelow n rest

/-- A busy sequencer serves a request of the interface that is modelled: the whole block's host sends no transaction, and the
PE alone gets no host request (R93). -/
def interfaceOk (o : Offers) : Seq → Bool
  | .idle => true
  | .busy r _ _ => r.isPe == o.isPe
  | .faulted _ => true

/-- Every register of a member handle reads as a value of its width, one the block has not written yet too (R7 `PORT_WIDTH`;
log 33). -/
def portsInWidth (p : Params) (m : List Host.Cell) : Bool :=
  (List.range (2 * p.nPorts)).all fun k => p.portVal (portRead m k) == portRead m k

/-- The tracked and the saved column are values of their width (R7 `COL_WIDTH`). -/
def Ct.inWidth (p : Params) (c : Ct) : Bool := p.colVal c.col == c.col && p.colVal c.saved == c.saved

/-- The parameters, the port memory, the handles, the columns, the sequencer and the interface are as R7, R21, R25, R30, R50 and
R93 say. -/
def State.wf (s : State) : Bool :=
  s.par.wf && s.par.isHandle s.pe.active && portsWf s.pe.ports && portsBelow s.par.nPorts s.pe.ports &&
    portsInWidth s.par s.pe.ports && s.ct.inWidth s.par && seqOk s.par s.seq && interfaceOk s.offers s.seq

/-- R240's condition: `DATA[ACTIVE]` has RS = 1 and E = 0, so that the next data byte is latched as data. -/
def State.rsReady (s : State) : Bool := rsOf s.par s.pe.d && !eOf s.par s.pe.d

/-! ### The event lists the rules print, for the layout R7 gives the port byte -/

/-- `b[7:4] << 4` (R111, R112). -/
def hiOf (b : Byte) : Byte := (b.extractLsb' 4 4 ++ (0#4 : Nibble) : BitVec 8)

/-- `b[3:0] << 4` (R111, R112). -/
def loOf (b : Byte) : Byte := (b.extractLsb' 0 4 ++ (0#4 : Nibble) : BitVec 8)

/-- R111's eleven events, with `d0` the value of `DATA[a]` on entry. -/
def cmdEvents (a : Nat) (d0 b : Byte) : List Event :=
  [ .wrData a (d0 &&& 0xFD#8),
    .wrData a ((d0 &&& 0xFD#8) ||| 0x01#8),
    .wrData a (hiOf b ||| (d0 &&& 0x0C#8) ||| 0x01#8),
    .wrData a (hiOf b ||| (d0 &&& 0x0C#8)),
    .wait .gap,
    .wrData a (hiOf b ||| (d0 &&& 0x0C#8) ||| 0x01#8),
    .wrData a (loOf b ||| (d0 &&& 0x0C#8) ||| 0x01#8),
    .wrData a (loOf b ||| (d0 &&& 0x0C#8)),
    .wait .byte,
    .wrData a (loOf b ||| (d0 &&& 0x0C#8) ||| 0x02#8),
    .wait .cmd ]

/-- The final `DATA[a]` after a command (R104). -/
def cmdFinal (d0 b : Byte) : Byte := loOf b ||| (d0 &&& 0x0C#8) ||| 0x02#8

/-- R112's eight events. -/
def dataEvents (a : Nat) (d0 b : Byte) : List Event :=
  [ .wrData a (d0 ||| 0x01#8),
    .wrData a (hiOf b ||| (d0 &&& 0x0E#8) ||| 0x01#8),
    .wrData a (hiOf b ||| (d0 &&& 0x0E#8)),
    .wait .gap,
    .wrData a (hiOf b ||| (d0 &&& 0x0E#8) ||| 0x01#8),
    .wrData a (loOf b ||| (d0 &&& 0x0E#8) ||| 0x01#8),
    .wrData a (loOf b ||| (d0 &&& 0x0E#8)),
    .wait .byte ]

/-- The final `DATA[a]` after a data byte (R103). -/
def dataFinal (d0 b : Byte) : Byte := loOf b ||| (d0 &&& 0x0E#8)

/-! ### The register access table (R28, and R111 to R114 for the PE transactions) -/

/-- Who writes `ACTIVE`. -/
def writesActive : Instr → Bool
  | .setcfg _ => true
  | .peSelect _ => true
  | .init => false
  | .move _ _ => false
  | .putc _ => false
  | .clear => false
  | .home => false
  | .number _ => false
  | .clrline _ => false
  | .clrfrom _ _ => false
  | .peCmd _ => false
  | .peData _ => false
  | .pePortinit => false

/-- Who writes `DATA[ACTIVE]`. -/
def writesData : Instr → Bool
  | .setcfg _ => false
  | .peSelect _ => false
  | .init => true
  | .move _ _ => true
  | .putc _ => true
  | .clear => true
  | .home => true
  | .number _ => true
  | .clrline _ => true
  | .clrfrom _ _ => true
  | .peCmd _ => true
  | .peData _ => true
  | .pePortinit => true

/-- Whose `DIR` a request writes, with `a` the value of `ACTIVE` on entry. -/
def writesDir (p : Params) (a : Nat) : Instr → Option Nat
  | .setcfg h => some (handleOf p h)
  | .peSelect h => some (handleOf p h)
  | .init => some a
  | .pePortinit => some a
  | .move _ _ => none
  | .putc _ => none
  | .clear => none
  | .home => none
  | .number _ => none
  | .clrline _ => none
  | .clrfrom _ _ => none
  | .peCmd _ => none
  | .peData _ => none

/-- Who writes `COL`. -/
def writesCol : Instr → Bool
  | .init => true
  | .move _ _ => true
  | .putc _ => true
  | .number _ => true
  | .clrline _ => true
  | .clrfrom _ _ => true
  | .setcfg _ => false
  | .clear => false
  | .home => false
  | .peCmd _ => false
  | .peData _ => false
  | .pePortinit => false
  | .peSelect _ => false

/-- Who writes `SAVED`. -/
def writesSaved : Instr → Bool
  | .clrfrom _ _ => true
  | .init => false
  | .move _ _ => false
  | .putc _ => false
  | .number _ => false
  | .clrline _ => false
  | .setcfg _ => false
  | .clear => false
  | .home => false
  | .peCmd _ => false
  | .peData _ => false
  | .pePortinit => false
  | .peSelect _ => false

/-- The moves out of range a request makes itself, `col` being `COL` on entry (R202): `MOVE`'s own, and `CLRFROM`'s first and
last. -/
def outOfRangeMove (p : Params) (col : Byte) : Instr → Bool
  | .move r c => decide (p.rows ≤ r.toNat) || decide (p.cols ≤ c.toNat)
  | .clrfrom x y => decide (p.rows ≤ x.toNat) || decide (p.cols ≤ y.toNat) || decide (p.cols ≤ col.toNat)
  | .init => false
  | .putc _ => false
  | .number _ => false
  | .clrline _ => false
  | .setcfg _ => false
  | .clear => false
  | .home => false
  | .peCmd _ => false
  | .peData _ => false
  | .pePortinit => false
  | .peSelect _ => false

/-! ### Transactions of a request, as R156 tabulates them -/

/-- `A(r, c)` of R156. -/
def addrTxn (p : Params) (r c : Byte) : Txn := .cmd (addrCmd p r c)

/-- `P(ch)` of R156, with `COL` on entry. -/
def putTxns (p : Params) (col ch : Byte) : List Txn :=
  (if col = p.wrapCol then [addrTxn p 1#8 0#8] else []) ++ [.data ch]

/-- `COL` after a `PUTC` (R144). -/
def colAfterPutc (p : Params) (col : Byte) : Byte := p.colVal (if col = p.wrapCol then 1#8 else col + 1#8)

/-- `COL` after `k` `PUTC`s. -/
def colAfterPutcs (p : Params) : Nat → Byte → Byte
  | 0, col => col
  | k + 1, col => colAfterPutcs p k (colAfterPutc p col)

/-- `P(CHAR_SPACE)` repeated `k` times, with `COL` on entry (R156). -/
def spacesTxns (p : Params) : Nat → Byte → List Txn
  | 0, _ => []
  | k + 1, col => putTxns p col p.charSpace ++ spacesTxns p k (colAfterPutc p col)

/-- The two characters of `NUMBER n` (R149): the digits from `CHAR_ZERO` on. -/
def renderedNumber (p : Params) (n : Byte) : Byte × Byte :=
  if n.toNat < 10 then (BitVec.ofNat 8 (p.charZero.toNat + n.toNat), p.charSpace)
  else if n.toNat < 20 then
    (BitVec.ofNat 8 (p.charZero.toNat + 1), BitVec.ofNat 8 (p.charZero.toNat + (n.toNat - 10)))
  else (p.charX, p.charX)

/-- The data bytes of R150's table. -/
def tableNumber (n : Byte) : Byte × Byte :=
  if n.toNat < 10 then (BitVec.ofNat 8 (0x30 + n.toNat), 0x20#8)
  else if n.toNat < 20 then (0x31#8, BitVec.ofNat 8 (0x30 + (n.toNat - 10)))
  else (0x78#8, 0x78#8)

/-- How many of some transactions are commands. -/
def cmdCount : List Txn → Nat
  | [] => 0
  | .cmd _ :: rest => cmdCount rest + 1
  | .data _ :: rest => cmdCount rest
  | .portInit :: rest => cmdCount rest
  | .select _ :: rest => cmdCount rest

/-- How many of some transactions are data bytes. -/
def dataCount : List Txn → Nat
  | [] => 0
  | .data _ :: rest => dataCount rest + 1
  | .cmd _ :: rest => dataCount rest
  | .portInit :: rest => dataCount rest
  | .select _ :: rest => dataCount rest

/-! ### Running the sequencer -/

/-- `k` steps of the sequencer at the spec's grain, stopping at a fault. -/
def microRun : Nat → State → Host.Outcome State Fault Refusal
  | 0, s => .next s
  | k + 1, s =>
    match microStep s with
    | .next t => microRun k t
    | .fault f => .fault f
    | .refused r => .refused r

end Sys2Proof.Machine
end

