-- ==== Sys2Proof/Certificates/Slice0/Obligations.lean ====
section
/-! DEFINITION. The statements for the provers, by the spec's numbered rules. None rests on the value of a free constant.
Statements with the masks R100 to R112 print have as premise `specLayout`, the 8-bit port byte as R7 lays it out; statements with
R7's 2 rows, 16 columns and wrap at 16 have `specGeometry`, which holds `specWidths`: the column and the operands have the 8 bits
R7 gives them, so that every operand is taken whole. Where a width is not fixed so, a statement names what is kept of a value:
`portVal`, `colVal`, `operand` (log 33). Right after reset all three premises hold (ResetValues), and no step changes a parameter
(TraceOnlyGrows). -/

open Sys2Proof Sys2Proof.Machine

/-! ### Encoding (30_encoding) -/

/-- R80, R81, R90, R91: the word of a request decodes to that request, with every operand at every value. -/
def Obligations.DecodeOfEncodeIsTheRequest : Prop :=
  ∀ i : Instr, decode (encode i) = .ok i

/-- R84: no two words spell one request; a word that decodes is that request's one word. -/
def Obligations.DecodedWordIsTheEncodedWord : Prop :=
  ∀ (w : CodeWord) (i : Instr), decode w = .ok i → encode i = w

/-- R83: exactly the listed words are reserved, and each is rejected as itself. -/
def Obligations.ReservedHostWordsAreRejected : Prop :=
  ∀ w : BitVec 24,
    (decodeHost w = .error (.reservedRequest w) ↔
      hostOpc w = 0x00#8 ∨ 0x0A ≤ (hostOpc w).toNat ∨
      ((hostOpc w = 0x01#8 ∨ hostOpc w = 0x05#8 ∨ hostOpc w = 0x06#8) ∧ (hostA w ≠ 0#8 ∨ hostB w ≠ 0#8)) ∨
      ((hostOpc w = 0x02#8 ∨ hostOpc w = 0x04#8 ∨ hostOpc w = 0x07#8 ∨ hostOpc w = 0x08#8) ∧ hostB w ≠ 0#8)) ∧
    (∀ r, decodeHost w = .error r → r = .reservedRequest w)

/-- R92's list of reserved transaction words; the CT never issues one. -/
def Obligations.ReservedPeWordsAreRejected : Prop :=
  ∀ w : BitVec 12,
    (decodePe w = .error (.reservedPE w) ↔
      0x4 ≤ (peKind w).toNat ∨ (peKind w = 0x2#4 ∧ peOpd w ≠ 0#8)) ∧
    (∀ r, decodePe w = .error r → r = .reservedPE w) ∧
    (∀ t : Txn, decodePe t.word = .ok t.toInstr)

/-- R84: a word matches one row of the opcode table, its request's, or it is reserved and matches none. -/
def Obligations.OpcodeTableDecidesDecoding : Prop :=
  ∀ w : CodeWord,
    (∃ i, decode w = .ok i ∧ (opcodeTable.filter fun row => row.matchesWord w).map (·.mnemonic) = [i.mnemonic]) ∨
    (∃ r, decode w = .error r ∧ (opcodeTable.filter fun row => row.matchesWord w) = [])

/-- R85's worked encodings, and one word of each PE transaction. -/
def Obligations.WorkedEncodings : Prop :=
  decodeHost 0x010000#24 = .ok .init ∧ decodeHost 0x020100#24 = .ok (.setcfg 1#8) ∧
  decodeHost 0x030105#24 = .ok (.move 1#8 5#8) ∧ decodeHost 0x044100#24 = .ok (.putc 0x41#8) ∧
  decodeHost 0x050000#24 = .ok .clear ∧ decodeHost 0x060000#24 = .ok .home ∧
  decodeHost 0x070700#24 = .ok (.number 7#8) ∧ decodeHost 0x080300#24 = .ok (.clrline 3#8) ∧
  decodeHost 0x090004#24 = .ok (.clrfrom 0#8 4#8) ∧ decodePe 0x028#12 = .ok (.peCmd 0x28#8) ∧
  decodePe 0x128#12 = .ok (.peData 0x28#8) ∧ decodePe 0x200#12 = .ok .pePortinit ∧
  decodePe 0x301#12 = .ok (.peSelect 1#8)

/-! ### The step and the sequencer (10_state, 60_exceptions, 70_reset_and_hazards) -/

/-- R31, R205, R93: a step of an idle block, no reset being asserted, serves the request of the next offered word; and a word
put where the step fetches runs next, at the same state when it is of the interface that is modelled. While that is the whole
block, whose words are its host's, the request served is no PE transaction; the PE alone serves nothing else (log 1, log 2). -/
def Obligations.StepServesTheDecodedRequest : Prop :=
  (∀ (s : State) (w : CodeWord) (rest : Offers) (i : Instr),
    s.resetReq = false → s.seq = .idle → s.offers.pop = some (w, rest) → decode w = .ok i →
      step s = exec i { s with offers := rest }) ∧
  (∀ (s : State) (nbits w : Nat) (i : Instr),
    s.resetReq = false → s.seq = .idle → decodeTableWord nbits w = some i →
      ∃ rest, step (s.withFetchWord nbits w) = exec i { s with offers := rest } ∧
        (s.offers.isPe = i.isPe → rest = s.offers)) ∧
  (∀ (ws : List (BitVec 24)) (w : CodeWord) (rest : Offers) (i : Instr),
    (Offers.host ws).pop = some (w, rest) → decode w = .ok i →
      (∃ ws', rest = .host ws') ∧
      (∀ b, i ≠ .peCmd b) ∧ (∀ b, i ≠ .peData b) ∧ i ≠ .pePortinit ∧ (∀ h, i ≠ .peSelect h)) ∧
  (∀ (ws : List (BitVec 12)) (w : CodeWord) (rest : Offers) (i : Instr),
    (Offers.peAlone ws).pop = some (w, rest) → decode w = .ok i →
      (∃ ws', rest = .peAlone ws') ∧ ∃ t : Txn, i = t.toInstr)

/-- R203, R205: a reserved word performs nothing and changes no block state; the mark is set and kept. That the word is taken
from the words to be offered, and that the refusal is a next state, is the model's reading (log 9, on the stream of log 2). -/
def Obligations.ReservedWordIsRefused : Prop :=
  ∀ (s : State) (w : CodeWord) (rest : Offers) (r : Reject),
    s.resetReq = false → s.seq = .idle → s.offers.pop = some (w, rest) → decode w = .error r →
      step s = .next { s with offers := rest, refusals := s.refusals ++ [r] } ∧
      microStep s = .next { s with offers := rest, refusals := s.refusals ++ [r] }

/-- The model's reading of R230's "waits for its first host request" (log 3): an idle block that is offered nothing stays as
it is. -/
def Obligations.IdleBlockWaits : Prop :=
  ∀ s : State, s.resetReq = false → s.seq = .idle → s.offers.pop = none → step s = .next s ∧ microStep s = .next s

/-- R31: a request offered to a busy block is not accepted (log 11), and a step of the busy block leaves what the host offers
at the host. -/
def Obligations.BusyBlockLetsRequestsWait : Prop :=
  ∀ (s : State) (r : Instr) (k : Nat) (ops : List MicroOp), s.seq = .busy r k ops →
    (∀ i, exec i s = .next s) ∧
    (s.resetReq = false → ∃ t, step s = .next t ∧ microStep s = .next t ∧ t.offers = s.offers)

/-- R31, R30: acceptance sets `SEQ` to `Busy(r, 0)` and writes nothing else. -/
def Obligations.AcceptanceSetsBusy : Prop :=
  ∀ (s : State) (w : CodeWord) (rest : Offers) (i : Instr),
    s.resetReq = false → s.seq = .idle → s.offers.pop = some (w, rest) → decode w = .ok i → faultOf s.par i = none →
      microStep s = .next { s with offers := rest, seq := .busy i 0 (s.expand (scriptOf s.par i)) }

/-- R30: a step of a busy block performs micro-operation `i` and sets `Busy(r, i+1)`; after the last, `Idle`. -/
def Obligations.BusyStepPerformsOneMicroOp : Prop :=
  ∀ (s : State) (r : Instr) (i : Nat) (ops : List MicroOp) (m : MicroOp),
    s.resetReq = false → s.seq = .busy r i ops → ops[i]? = some m →
      step s = .next { m.run s with seq := if i + 1 < ops.length then .busy r (i + 1) ops else .idle } ∧
      microStep s = .next { m.run s with seq := if i + 1 < ops.length then .busy r (i + 1) ops else .idle }

/-- R201, R206: a faulted block accepts no request and takes no step; only block reset leaves the fault. -/
def Obligations.FaultedBlockIsStuck : Prop :=
  ∀ (s : State) (f : Fault), s.seq = .faulted f →
    (∀ i, exec i s = .fault f) ∧
    (s.resetReq = false → step s = .fault f ∧ microStep s = .fault f) ∧
    (∀ t, step s = .next t → s.resetReq = true) ∧ (∀ t, microStep s = .next t → s.resetReq = true)

/-- R230: what block reset writes, and that it writes no port register and appends no event. That a reset asserted in any
state, a busy one included, is taken first is the model's choice (log 14); that the words still to be offered stay is its
choice too (log 31). -/
def Obligations.BlockResetEffect : Prop :=
  ∀ s : State, s.resetReq = true → ∃ t, step s = .next t ∧ microStep s = .next t ∧
    t.pe.active = s.par.initialHandle ∧ t.ct.col = 0#8 ∧ t.ct.misuse = false ∧ t.seq = .idle ∧
    t.refusals = [] ∧ t.trace = s.trace ∧ t.par = s.par ∧ t.offers = s.offers ∧
    (∀ h, t.pe.data h = s.pe.data h) ∧ (∀ h, t.pe.dir h = s.pe.dir h)

/-- R34: the values after reset that the spec gives, and the values R7 gives the parameters of the run. -/
def Obligations.ResetValues : Prop :=
  State.reset.pe.active = State.reset.par.initialHandle ∧ State.reset.ct.col = 0#8 ∧
  State.reset.ct.misuse = false ∧ State.reset.seq = .idle ∧ State.reset.refusals = [] ∧
  State.reset.par.isHandle State.reset.par.initialHandle = true ∧
  State.reset.par.specLayout = true ∧ State.reset.par.specGeometry = true ∧ State.reset.par.specWidths = true ∧
  State.reset.par.portWidth = 8 ∧ State.reset.par.colWidth = 8 ∧ State.reset.par.operandWidth = 8 ∧
  State.reset.par.rows = 2 ∧ State.reset.par.cols = 16 ∧ State.reset.par.rowShift = 6 ∧
  State.reset.par.wrapCol = 16#8 ∧ State.reset.par.nibbleMask = 0xF0#8 ∧ State.reset.par.rsMask = 0x02#8 ∧
  State.reset.par.eMask = 0x01#8 ∧ State.reset.par.dirMask = 0xF3#8 ∧
  State.reset.par.addrCmdPrefix = 0x00#8 ∧ State.reset.par.opHandshake = 0x02#8 ∧
  State.reset.par.opFuncset = 0x28#8 ∧ State.reset.par.opEntry = 0x06#8 ∧ State.reset.par.opDispon = 0x0C#8 ∧
  State.reset.par.opClear = 0x01#8 ∧ State.reset.par.opHome = 0x02#8 ∧ State.reset.par.charZero = 0x30#8 ∧
  State.reset.par.charSpace = 0x20#8 ∧ State.reset.par.charX = 0x78#8 ∧
  State.reset.par.tByteNs = 50000 ∧ State.reset.par.tCmdNs = 5000000

/-! ### The protocol engine (40_protocol_engine) -/

/-- R100's table, for every layout of the port byte: what each PE micro-operation writes, and exactly the events it appends. With
the layout of R7, whose 8 bits keep every value, the masks are those the table prints. That a mask is that of the argument
(log 18), and that a register of `PORT_WIDTH` bits keeps, and its event shows, the low bits of what is written (log 33), is the
model's choice. -/
def Obligations.MicroOperationTable : Prop :=
  ∀ s : State,
    let a := s.pe.active
    let d := s.pe.data a
    let wrote (v : Byte) : State :=
      { s with pe := { s.pe with ports := portWrite s.pe.ports (dataKey a) v }, trace := s.trace ++ [.wrData a v] }
    let dirV (h : Nat) : Byte := s.par.portVal (s.pe.dir h ||| s.par.dirMask)
    (MicroOp.pe .eHi).run s = wrote (s.par.portVal (d ||| s.par.eMask)) ∧
    (MicroOp.pe .eLo).run s = wrote (s.par.portVal (d &&& ~~~s.par.eMask)) ∧
    (MicroOp.pe .rsHi).run s = wrote (s.par.portVal (d ||| s.par.rsMask)) ∧
    (MicroOp.pe .rsLo).run s = wrote (s.par.portVal (d &&& ~~~s.par.rsMask)) ∧
    (∀ v, (MicroOp.pe (.put v)).run s = wrote (s.par.portVal (v ||| (d &&& ~~~s.par.nibbleMask)))) ∧
    (MicroOp.pe .zero).run s = wrote 0x00#8 ∧
    (∀ h, (MicroOp.pe (.dirCfg h)).run s =
      { s with pe := { s.pe with ports := portWrite s.pe.ports (dirKey h) (dirV h) },
               trace := s.trace ++ [.wrDir h (dirV h)] }) ∧
    (∀ h, (MicroOp.pe (.setAct h)).run s = { s with pe := { s.pe with active := h } }) ∧
    (∀ k, (MicroOp.pe (.wait k)).run s = { s with trace := s.trace ++ [.wait k] }) ∧
    (s.par.specLayout = true →
      (∀ v, s.par.portVal v = v) ∧ d ||| s.par.eMask = d ||| 0x01#8 ∧ d &&& ~~~s.par.eMask = d &&& 0xFE#8 ∧
      d ||| s.par.rsMask = d ||| 0x02#8 ∧ d &&& ~~~s.par.rsMask = d &&& 0xFD#8 ∧
      d &&& ~~~s.par.nibbleMask = d &&& 0x0F#8 ∧ ∀ h, s.pe.dir h ||| s.par.dirMask = s.pe.dir h ||| 0xF3#8)

/-- R54: a register reads as the value last written, and a write leaves every other register alone. -/
def Obligations.PortRegistersAreLatches : Prop :=
  ∀ (p : Pe) (h k : Nat) (v : Byte),
    (p.writeData h v).1.data k = (if k = h then v else p.data k) ∧ (p.writeData h v).1.dir k = p.dir k ∧
    (p.writeDir h v).1.dir k = (if k = h then v else p.dir k) ∧ (p.writeDir h v).1.data k = p.data k

/-- R101, R102: the three writes of a nibble frame, and the one pair it latches, at its third write, with the RS level on
entry. -/
def Obligations.NibbleFrameLatchesOnce : Prop :=
  ∀ (par : Params) (v : Byte) (p : Pe), par.specLayout = true → v &&& 0x0F#8 = 0#8 →
    (peOps par (nib v) p).2 =
      [ .wrData p.active (p.d ||| 0x01#8), .wrData p.active (v ||| (p.d &&& 0x0E#8) ||| 0x01#8),
        .wrData p.active (v ||| (p.d &&& 0x0E#8)) ] ∧
    latches par p.active p.d ((peOps par (nib v) p).2.take 2) = [] ∧
    latches par p.active p.d (peOps par (nib v) p).2 = [⟨p.d.getLsbD 1, v.extractLsb' 4 4⟩]

/-- R103: `SEND_BYTE`'s events, its two latches with the high nibble first, its final value, RS unchanged. -/
def Obligations.SendByteHighNibbleFirst : Prop :=
  ∀ (par : Params) (b : Byte) (p : Pe), par.specLayout = true →
    (peOps par (sendByte par b) p).2 = dataEvents p.active p.d b ∧
    latches par p.active p.d (peOps par (sendByte par b) p).2 =
      [⟨p.d.getLsbD 1, b.extractLsb' 4 4⟩, ⟨p.d.getLsbD 1, b.extractLsb' 0 4⟩] ∧
    (peOps par (sendByte par b) p).1.d = loOf b ||| (p.d &&& 0x0E#8) ∧
    (peOps par (sendByte par b) p).1.d.getLsbD 1 = p.d.getLsbD 1

/-- R111, R104: `PE.CMD b` of an idle block completes; its eleven events, its final value, and nothing else changed. -/
def Obligations.PeCmdResult : Prop :=
  ∀ (b : Byte) (s : State), s.par.specLayout = true → s.seq = .idle →
    exec (.peCmd b) s = .next { s with
      pe := { s.pe with ports := portWrite s.pe.ports (dataKey s.pe.active) (cmdFinal s.pe.d b) },
      trace := s.trace ++ cmdEvents s.pe.active s.pe.d b }

/-- R112: `PE.DATA b` of an idle block completes; its eight events, its final value, and nothing else changed. -/
def Obligations.PeDataResult : Prop :=
  ∀ (b : Byte) (s : State), s.par.specLayout = true → s.seq = .idle →
    exec (.peData b) s = .next { s with
      pe := { s.pe with ports := portWrite s.pe.ports (dataKey s.pe.active) (dataFinal s.pe.d b) },
      trace := s.trace ++ dataEvents s.pe.active s.pe.d b }

/-- R113: `PE.PORTINIT` completes: `DIR` then `DATA`, and the spurious latch when E was 1. `DIR_MASK` is
0xF3 by R7, and a port register has 8 bits; for other values the clauses are the model's choice (log 18, log 33). -/
def Obligations.PePortinitResult : Prop :=
  ∀ s : State, s.seq = .idle →
    let a := s.pe.active
    let v := s.par.portVal (s.pe.dir a ||| s.par.dirMask)
    exec .pePortinit s = .next { s with
      pe := { s.pe with ports := portWrite (portWrite s.pe.ports (dirKey a) v) (dataKey a) 0x00#8 },
      trace := s.trace ++ [.wrDir a v, .wrData a 0x00#8] } ∧
    latches s.par a (s.pe.data a) [.wrDir a v, .wrData a 0x00#8] =
      (if eOf s.par (s.pe.data a) then [⟨false, 0#4⟩] else []) ∧
    (s.par.specLayout = true → v = s.pe.dir a ||| 0xF3#8 ∧ eOf s.par (s.pe.data a) = (s.pe.data a).getLsbD 0)

/-- R114, R141: `PE.SELECT h` and `SETCFG h` with a member handle complete: `ACTIVE`, `DIR[h]` and nothing else. `DIR_MASK` is
0xF3 by R7, a port register has 8 bits, and the handle operand its 8, so that it names the handle of its number (R82); for
other values the clauses are the model's choice (log 18, log 33). -/
def Obligations.SelectResult : Prop :=
  ∀ (h : Byte) (s : State), s.seq = .idle → s.par.isHandle (handleOf s.par h) = true →
    let k := handleOf s.par h
    let v := s.par.portVal (s.pe.dir k ||| s.par.dirMask)
    let t : State := { s with
      pe := { active := k, ports := portWrite s.pe.ports (dirKey k) v },
      trace := s.trace ++ [.wrDir k v] }
    exec (.peSelect h) s = .next t ∧ exec (.setcfg h) s = .next t ∧
    (s.par.specWidths = true → k = h.toNat) ∧ (s.par.specLayout = true → v = s.pe.dir k ||| 0xF3#8)

/-- R201: with a handle that is no member they fault before any micro-operation, recording the handle. That an operand
of fewer than 8 bits names the handle of its low bits is the model's choice (log 33). -/
def Obligations.InvalidHandleFaults : Prop :=
  ∀ (h : Byte) (s : State), s.seq = .idle → s.par.isHandle (handleOf s.par h) = false →
    exec (.peSelect h) s = .next { s with seq := .faulted (.invalidHandle (handleOf s.par h)) } ∧
    exec (.setcfg h) s = .next { s with seq := .faulted (.invalidHandle (handleOf s.par h)) } ∧
    (s.par.specWidths = true → handleOf s.par h = h.toNat)

/-- R204: only `SETCFG` and `PE.SELECT` fault; every other request leaves an idle block idle. That a handle
operand of fewer than 8 bits names the handle of its low bits is the model's choice (log 33). -/
def Obligations.OnlySelectFaults : Prop :=
  ∀ (i : Instr) (s t : State), s.seq = .idle → exec i s = .next t →
    t.seq = .idle ∨
    (∃ h : Byte, (i = .setcfg h ∨ i = .peSelect h) ∧ s.par.isHandle (handleOf s.par h) = false ∧
      t.seq = .faulted (.invalidHandle (handleOf s.par h)) ∧ (s.par.specWidths = true → handleOf s.par h = h.toNat))

/-- R75, R111, R112: `PE.CMD b` puts one instruction byte on the active port's bus; `PE.DATA b` a data byte or an instruction
byte by the RS level it finds. -/
def Obligations.TransactionBusBytes : Prop :=
  ∀ (par : Params) (b : Byte) (p : Pe), par.specLayout = true →
    busBytes par p.active p.d (peTxn par (.cmd b) p).2 = [⟨false, b, false⟩] ∧
    busBytes par p.active p.d (peTxn par (.data b) p).2 = [⟨p.d.getLsbD 1, b, false⟩]

/-- R115: the events of each transaction, counted, and the minimum durations of the two that wait. `PE.SELECT h` with `h` no
member of `Handle` faults instead, writes nothing and appends no event (R114, R201); which handle an operand of fewer than 8 bits
names is the model's choice (log 33). -/
def Obligations.TransactionEventCounts : Prop :=
  ∀ (b h : Byte) (p : Pe) (par : Params),
    countEvents (peTxn par (.cmd b) p).2 = ⟨8, 0, 1, 1, 1⟩ ∧ countEvents (peTxn par (.data b) p).2 = ⟨6, 0, 1, 1, 0⟩ ∧
    countEvents (peTxn par .portInit p).2 = ⟨1, 1, 0, 0, 0⟩ ∧
    (par.isHandle (handleOf par h) = true → countEvents (peTxn par (.select h) p).2 = ⟨0, 1, 0, 0, 0⟩) ∧
    (par.isHandle (handleOf par h) = false → peTxn par (.select h) p = (p, [])) ∧
    (par.specWidths = true → handleOf par h = h.toNat) ∧
    minNs par (peTxn par (.cmd b) p).2 = par.tGapNs + par.tByteNs + par.tCmdNs ∧
    minNs par (peTxn par (.data b) p).2 = par.tGapNs + par.tByteNs

/-! ### The cursor tracker (41_cursor_tracker) -/

/-- R140, R231: `INIT` completes: the port, the five commands, `COL` 0; `ACTIVE`, `SAVED` and `MISUSE` kept; and its bus bytes,
when the port's E was 0 on entry. With the bytes of R7 these are `C02 C28 C06 C0C C01`, and `DATA` ends at 0x12. -/
def Obligations.InitResult : Prop :=
  ∀ s : State, s.par.specLayout = true → s.seq = .idle →
    let a := s.pe.active
    let d1 := cmdFinal 0x00#8 s.par.opHandshake
    let d2 := cmdFinal d1 s.par.opFuncset
    let d3 := cmdFinal d2 s.par.opEntry
    let d4 := cmdFinal d3 s.par.opDispon
    let evs : List Event :=
      [.wrDir a (s.pe.dir a ||| 0xF3#8), .wrData a 0x00#8] ++ cmdEvents a 0x00#8 s.par.opHandshake ++
      cmdEvents a d1 s.par.opFuncset ++ cmdEvents a d2 s.par.opEntry ++ cmdEvents a d3 s.par.opDispon ++
      cmdEvents a d4 s.par.opClear
    ∃ t, exec .init s = .next t ∧ t.trace = s.trace ++ evs ∧
      t.pe.active = a ∧ t.pe.data a = cmdFinal d4 s.par.opClear ∧ t.pe.dir a = s.pe.dir a ||| 0xF3#8 ∧
      t.ct = { s.ct with col := 0#8 } ∧ t.seq = .idle ∧
      (eOf s.par s.pe.d = false →
        busBytes s.par a s.pe.d evs = [busC s.par.opHandshake, busC s.par.opFuncset, busC s.par.opEntry,
          busC s.par.opDispon, busC s.par.opClear]) ∧
      (s.par.specBytes = true → t.pe.data a = 0x12#8 ∧ (eOf s.par s.pe.d = false →
        busBytes s.par a s.pe.d evs = [busC 0x02#8, busC 0x28#8, busC 0x06#8, busC 0x0C#8, busC 0x01#8]))

/-- R142: `MOVE r, c` completes for every row and column: one command with the truncated address, `COL <- c`, the mark set
when the precondition fails, and nothing else changed. -/
def Obligations.MoveResult : Prop :=
  ∀ (r c : Byte) (s : State), s.par.specLayout = true → s.par.specGeometry = true → s.seq = .idle →
    let b : Byte := BitVec.ofNat 8 (s.par.addrCmdPrefix.toNat ||| (r.toNat <<< 6) ||| c.toNat)
    exec (.move r c) s = .next { s with
      pe := { s.pe with ports := portWrite s.pe.ports (dataKey s.pe.active) (cmdFinal s.pe.d b) },
      ct := { s.ct with col := c, misuse := s.ct.misuse || decide (r.toNat > 1 ∨ c.toNat > 15) },
      trace := s.trace ++ cmdEvents s.pe.active s.pe.d b }

/-- R143: in range, `MOVE` sends one instruction byte, `ADDR_CMD_PREFIX | (r << 6) | c`, leaves `COL = c` and marks nothing. -/
def Obligations.MoveInRangeSendsItsAddress : Prop :=
  ∀ (r c : Byte) (s : State), s.par.specLayout = true → s.par.specGeometry = true → s.seq = .idle →
    r.toNat ≤ 1 → c.toNat < 16 → ∃ t evs,
    exec (.move r c) s = .next t ∧ t.trace = s.trace ++ evs ∧
    busBytes s.par s.pe.active s.pe.d evs = [busC (s.par.addrCmdPrefix ||| (r <<< 6) ||| c)] ∧
    (s.par.addrCmdPrefix = 0x00#8 → busBytes s.par s.pe.active s.pe.d evs = [busC ((r <<< 6) ||| c)]) ∧
    t.ct.col = c ∧ t.ct.misuse = s.ct.misuse

/-- R144: `PUTC` completes: the character at every `COL` but 16, and there the move to row 1, column 0 first. -/
def Obligations.PutcResult : Prop :=
  ∀ (ch : Byte) (s : State), s.par.specLayout = true → s.par.specGeometry = true → s.seq = .idle →
    let a := s.pe.active
    let d1 := cmdFinal s.pe.d (s.par.addrCmdPrefix ||| 0x40#8)
    exec (.putc ch) s =
      if s.ct.col = 16#8 then
        .next { s with
          pe := { s.pe with ports := portWrite s.pe.ports (dataKey a) (dataFinal d1 ch) },
          ct := { s.ct with col := 1#8 },
          trace := s.trace ++ cmdEvents a s.pe.d (s.par.addrCmdPrefix ||| 0x40#8) ++ dataEvents a d1 ch }
      else
        .next { s with
          pe := { s.pe with ports := portWrite s.pe.ports (dataKey a) (dataFinal s.pe.d ch) },
          ct := { s.ct with col := BitVec.ofNat 8 (s.ct.col.toNat + 1) },
          trace := s.trace ++ dataEvents a s.pe.d ch }

/-- R147, R148: `CLEAR` and `HOME` complete: one command each, with the bytes of R7 0x01 and 0x02, `COL` kept, nothing else
changed. -/
def Obligations.ClearAndHomeResult : Prop :=
  ∀ s : State, s.par.specLayout = true → s.seq = .idle →
    let sent (b : Byte) : State := { s with
      pe := { s.pe with ports := portWrite s.pe.ports (dataKey s.pe.active) (cmdFinal s.pe.d b) },
      trace := s.trace ++ cmdEvents s.pe.active s.pe.d b }
    exec .clear s = .next (sent s.par.opClear) ∧ exec .home s = .next (sent s.par.opHome) ∧
    (s.par.specBytes = true → exec .clear s = .next (sent 0x01#8) ∧ exec .home s = .next (sent 0x02#8))

/-- R149: `NUMBER n` completes as its two `PUTC`s. -/
def Obligations.NumberIsTwoCharacters : Prop :=
  ∀ (n : Byte) (s : State), s.par.specWidths = true → s.seq = .idle → ∃ t,
    exec (.number n) s = .next t ∧
    execAll [.putc (renderedNumber s.par n).1, .putc (renderedNumber s.par n).2] s = .next t

/-- R150, R149: the data bytes of `NUMBER n`, those of the table with the codes of R7, from a port whose RS is 1 and E is 0; a
wrap falls before the first from column 16 and before the second from column 15, and `COL` advances by 2 less the wrap. -/
def Obligations.NumberRendering : Prop :=
  ∀ (n : Byte) (s : State), s.par.specLayout = true → s.par.specGeometry = true → s.seq = .idle → s.rsReady = true →
    ∃ t evs,
    exec (.number n) s = .next t ∧ t.trace = s.trace ++ evs ∧
    busBytes s.par s.pe.active s.pe.d evs =
      (if s.ct.col = 16#8 then [busC (addrCmd s.par 1#8 0#8)] else []) ++ [busD (renderedNumber s.par n).1] ++
      (if s.ct.col = 15#8 then [busC (addrCmd s.par 1#8 0#8)] else []) ++ [busD (renderedNumber s.par n).2] ∧
    t.ct.col = (if s.ct.col = 16#8 then 2#8 else if s.ct.col = 15#8 then 1#8 else s.ct.col + 2#8) ∧
    (s.par.specBytes = true → renderedNumber s.par n = tableNumber n)

/-- R151: `CLRLINE c` completes as `COLS - c` `PUTC`s of a space, none when `c` is `COLS` or more; `COLS` is 16 by R7;
for another the line's end at `COLS` is the model's choice (log 18). -/
def Obligations.ClrlineIsSpaces : Prop :=
  ∀ (c : Byte) (s : State), s.par.specWidths = true → s.seq = .idle → ∃ t,
    exec (.clrline c) s = .next t ∧ execAll (List.replicate (s.par.cols - c.toNat) (.putc s.par.charSpace)) s = .next t ∧
    (s.par.cols ≤ c.toNat → t = s) ∧ (s.par.specGeometry = true → s.par.cols = 16)

/-- R152: started at its own column, `CLRLINE` sends `16 - c` spaces and no wrap, and ends at column 16. -/
def Obligations.ClrlineFromItsColumn : Prop :=
  ∀ (c : Byte) (s : State), s.par.specGeometry = true → s.seq = .idle → s.ct.col = c → c.toNat ≤ 16 →
    ctTxns s.par (.clrline c) s.ct = List.replicate (16 - c.toNat) (.data s.par.charSpace) ∧
    ∃ t, exec (.clrline c) s = .next t ∧ t.ct.col = 16#8

/-- R153: `CLRFROM x, y` completes as its requests one after another, with `SAVED` the column on entry, which it restores. That
`SAVED` still holds that column afterwards is the model's choice (log 28). -/
def Obligations.ClrfromIsItsRequests : Prop :=
  ∀ (x y : Byte) (s : State), s.par.specWidths = true → s.seq = .idle → ∃ t,
    exec (.clrfrom x y) s = .next t ∧
    execAll ([.move x y, .clrline y] ++ (if x = 0#8 then [.move 1#8 0#8, .clrline 0#8] else []) ++
      [.move x s.ct.col]) { s with ct := { s.ct with saved := s.ct.col } } = .next t ∧
    t.ct.col = s.ct.col ∧ t.ct.saved = s.ct.col

/-- R153, R154: the bus bytes of `CLRFROM`, from a port whose RS is 1 and E is 0; a space is `D20` with the code of R7. -/
def Obligations.ClrfromBusBytes : Prop :=
  ∀ (x y : Byte) (s : State), s.par.specLayout = true → s.par.specGeometry = true → s.seq = .idle → s.rsReady = true →
    ∃ t evs,
    exec (.clrfrom x y) s = .next t ∧ t.trace = s.trace ++ evs ∧
    busBytes s.par s.pe.active s.pe.d evs =
      [busC (addrCmd s.par x y)] ++ List.replicate (16 - y.toNat) (busD s.par.charSpace) ++
      (if x = 0#8 then [busC (addrCmd s.par 1#8 0#8)] ++ List.replicate 16 (busD s.par.charSpace) else []) ++
      [busC (addrCmd s.par x s.ct.col)]

/-- R145, R146: the wrap-count law. `WRITE` completes; each wrap's command comes before the characters whose index is
`i1 + 16k`; there are `W` of them; and from a column up to 16 the final column is `c + L - 16W`, and `W` is
`floor((c + L - 1) / 16)`, or 0 for the empty text. -/
def Obligations.WriteWrapCountLaw : Prop :=
  ∀ (text : List Byte) (s : State), s.par.specLayout = true → s.par.specGeometry = true → s.seq = .idle →
    s.rsReady = true → ∃ t evs,
    execWrite text s = .next t ∧ t.trace = s.trace ++ evs ∧
    busBytes s.par s.pe.active s.pe.d evs =
      text.zipIdx.flatMap (fun c =>
        (if wrapsBefore s.par s.ct.col c.2 then [busC (addrCmd s.par 1#8 0#8)] else []) ++ [busD c.1]) ∧
    (busBytes s.par s.pe.active s.pe.d evs).countP (fun b => !b.rs) = wrapCount s.par s.ct.col text.length ∧
    (s.ct.col.toNat ≤ 16 →
      t.ct.col.toNat + 16 * wrapCount s.par s.ct.col text.length = s.ct.col.toNat + text.length ∧
      wrapCount s.par s.ct.col text.length = if text.length = 0 then 0 else (s.ct.col.toNat + text.length - 1) / 16)

/-- R156: the PE transactions of each host request; with the geometry of R7, `CLRFROM`'s 16 columns; and with the bytes of R7,
those the table writes out. The clauses stand for all values of the parameters: that a request takes the low bits of its operands and
`COL` keeps the low bits of its value at other widths than 8 (log 33), and that a rule's 16 is `COLS` or `WRAP_COL` and its bytes
the arguments (log 18), is the model's choice; at the values of R7 operands and `COL` are whole. -/
def Obligations.TransactionsOfRequests : Prop :=
  ∀ (p : Params) (c : Ct),
    (p.specWidths = true → (∀ v, p.operand v = v) ∧ ∀ v, p.colVal v = v) ∧
    ctTxns p .init c =
      [.portInit, .cmd p.opHandshake, .cmd p.opFuncset, .cmd p.opEntry, .cmd p.opDispon, .cmd p.opClear] ∧
    (∀ h, ctTxns p (.setcfg h) c = [.select h]) ∧
    (∀ r k, ctTxns p (.move r k) c = [addrTxn p (p.operand r) (p.operand k)]) ∧
    (∀ ch, ctTxns p (.putc ch) c = putTxns p c.col (p.operand ch)) ∧
    ctTxns p .clear c = [.cmd p.opClear] ∧
    ctTxns p .home c = [.cmd p.opHome] ∧
    (∀ n, ctTxns p (.number n) c =
      putTxns p c.col (renderedNumber p (p.operand n)).1 ++
        putTxns p (colAfterPutc p c.col) (renderedNumber p (p.operand n)).2) ∧
    (∀ k, ctTxns p (.clrline k) c = spacesTxns p (p.cols - (p.operand k).toNat) c.col) ∧
    (p.specGeometry = true → p.cols = 16 ∧ p.wrapCol = 16#8 ∧ ∀ x y, ctTxns p (.clrfrom x y) c =
      [addrTxn p x y] ++ List.replicate (16 - y.toNat) (.data p.charSpace) ++
      (if x = 0#8 then [addrTxn p 1#8 0#8] ++ List.replicate 16 (.data p.charSpace) else []) ++
      [addrTxn p x c.col]) ∧
    (p.specBytes = true →
      ctTxns p .init c = [.portInit, .cmd 0x02#8, .cmd 0x28#8, .cmd 0x06#8, .cmd 0x0C#8, .cmd 0x01#8] ∧
      ctTxns p .clear c = [.cmd 0x01#8] ∧ ctTxns p .home c = [.cmd 0x02#8] ∧
      (∀ n, renderedNumber p n = tableNumber n) ∧ p.charSpace = 0x20#8)

/-- R76: the instruction bytes a host request can put on the bus, by the request that sends them: `INIT`'s five, `CLEAR`'s,
`HOME`'s, and the address command of a move the request makes: `MOVE`'s own; the wrap's to row 1, column 0; `CLRFROM`'s to its
operands, to row 1, column 0 in a cascade, and back to the column on entry. -/
def Obligations.InstructionBytesAreListed : Prop :=
  ∀ (p : Params) (c : Ct) (i : Instr) (b : Byte), p.specGeometry = true → (∀ k, i ≠ .peCmd k) → .cmd b ∈ ctTxns p i c →
    (i = .init ∧ b ∈ [p.opHandshake, p.opFuncset, p.opEntry, p.opDispon, p.opClear]) ∨
    (i = .clear ∧ b = p.opClear) ∨
    (i = .home ∧ b = p.opHome) ∨
    (∃ r k, i = .move r k ∧ b = addrCmd p r k) ∨
    (((∃ ch, i = .putc ch) ∨ (∃ n, i = .number n) ∨ ∃ k, i = .clrline k) ∧ b = addrCmd p 1#8 0#8) ∨
    (∃ x y, i = .clrfrom x y ∧
      (b = addrCmd p x y ∨ (x = 0#8 ∧ b = addrCmd p 1#8 0#8) ∨ b = addrCmd p x c.col))

/-- R51: the display address is the formula at 8 bits, and in range, with the geometry of R7, row 0 at 0x00 and row 1 at 0x40
with the column added. -/
def Obligations.DisplayAddresses : Prop :=
  ∀ (p : Params) (row col : Byte),
    ddramAddr p row col = BitVec.ofNat 8 (((row.toNat <<< p.rowShift) ||| col.toNat) % 256) ∧
    (p.specGeometry = true → row.toNat < 2 → col.toNat < 16 →
      (ddramAddr p row col).toNat = 0x40 * row.toNat + col.toNat)

/-- R243 (g), R99: an in-range address command addresses DDRAM on an HD44780 with the prefix 0x80, and never with 0x00. -/
def Obligations.AddressPrefixConflict : Prop :=
  ∀ (p : Params) (r c : Byte), p.specGeometry = true → r.toNat < 2 → c.toNat < 16 →
    (p.addrCmdPrefix = 0x00#8 → ∀ a, lcdClassify (addrCmd p r c) ≠ .setDdram a) ∧
    (p.addrCmdPrefix = 0x80#8 → lcdClassify (addrCmd p r c) = .setDdram (BitVec.ofNat 7 (0x40 * r.toNat + c.toNat)))

/-! ### Both units, whole runs -/

/-- R155: a request is what the PE makes of the CT's transactions, with the CT's new registers; or it faults before any of
them. -/
def Obligations.RequestIsPeAfterCt : Prop :=
  ∀ (i : Instr) (s : State), s.seq = .idle →
    exec i s = .next (match faultOf s.par i with
      | some f => { s with seq := .faulted f }
      | none => { s with
          pe := (peTxns s.par (ctTxns s.par i s.ct) s.pe).1,
          ct := ctAfter s.par i s.ct,
          trace := s.trace ++ (peTxns s.par (ctTxns s.par i s.ct) s.pe).2 })

/-- R155: the CT reads no port state: two states that differ in it alone end with the same `COL`, `SAVED` and `MISUSE`. -/
def Obligations.CursorIgnoresThePorts : Prop :=
  ∀ (i : Instr) (s s' t t' : State), s.par = s'.par → s.ct = s'.ct → s.seq = .idle → s'.seq = .idle →
    exec i s = .next t → exec i s' = .next t' → t.ct = t'.ct

/-- R30, R31: served in one step or one micro-operation a step, a request ends in the same state, and the host sees the block
busy all the way. Serving it in one step is the model's choice (log 1), and that a request which expands to nothing takes two
sequencer steps is the model's reading (log 12); a request that faults takes one, which is its choice (log 30). -/
def Obligations.RequestRunsAsMicroSteps : Prop :=
  ∀ (i : Instr) (s : State) (w : CodeWord) (rest : Offers),
    s.resetReq = false → s.seq = .idle → s.offers.pop = some (w, rest) → decode w = .ok i →
    ∃ n, 0 < n ∧ microRun n s = exec i { s with offers := rest } ∧
      ∀ k, 0 < k → k < n → ∃ u, microRun k s = .next u ∧ u.hostSeesBusy = true

/-- R250: the minimum duration of a request is C for each of its commands and D for each of its data bytes. -/
def Obligations.RequestMinimumDuration : Prop :=
  ∀ (i : Instr) (s t : State), s.seq = .idle → faultOf s.par i = none → exec i s = .next t →
    ∃ evs, t.trace = s.trace ++ evs ∧
      minNs s.par evs =
        cmdCount (ctTxns s.par i s.ct) * cmdNs s.par + dataCount (ctTxns s.par i s.ct) * dataNs s.par

/-! ### Invariants and frames -/

/-- R7, R21, R25, R50, R93, R100, R201: the port memory keeps its canonical form and holds registers of member handles only, each
reading as a value of `PORT_WIDTH`; `COL` and `SAVED` are values of `COL_WIDTH`; `ACTIVE` is a member; the sequencer's position
is a legal one, and the request in progress is one of the interface that is modelled, after every step of either grain. -/
def Obligations.StepKeepsWellFormedness : Prop :=
  ∀ s t : State, s.wf = true →
    (step s = .next t → t.wf = true) ∧ (microStep s = .next t → t.wf = true)

/-- The reset state meets that invariant. -/
def Obligations.ResetIsWellFormed : Prop :=
  State.reset.wf = true

/-- R9, R57, R7, R93: a step only appends to the output trace, and changes no parameter nor what is modelled, the whole block
or the PE alone: that a block reset too keeps the words still to be offered is the model's choice (log 31). -/
def Obligations.TraceOnlyGrows : Prop :=
  ∀ s t : State, step s = .next t ∨ microStep s = .next t →
    (∃ evs, t.trace = s.trace ++ evs) ∧ t.par = s.par ∧ t.offers.isPe = s.offers.isPe

/-- R27, R202, R203, R230: a mark that is set stays set until block reset. -/
def Obligations.MarksAreSticky : Prop :=
  ∀ s t : State, s.resetReq = false → step s = .next t ∨ microStep s = .next t →
    (s.ct.misuse = true → t.ct.misuse = true) ∧ (∃ rs, t.refusals = s.refusals ++ rs)

/-- R202: misuse is marked by an out-of-range `MOVE`, the host's or `CLRFROM`'s, and by nothing else. -/
def Obligations.MisuseOnlyFromMoves : Prop :=
  ∀ (i : Instr) (s t : State), s.par.specGeometry = true → s.seq = .idle → exec i s = .next t →
    t.ct.misuse = (s.ct.misuse || outOfRangeMove s.par s.ct.col i)

/-- R28: the frame of every request: which of `ACTIVE`, `DATA`, `DIR`, `COL` and `SAVED` it may change, every other register
of every port unchanged, and the rest of the state unchanged but for the trace, `MISUSE` and `SEQ`. That `SAVED` keeps its
value between `CLRFROM` requests is the model's choice (log 28). -/
def Obligations.RegisterAccessFrame : Prop :=
  ∀ (i : Instr) (s t : State), exec i s = .next t →
    (writesActive i = false → t.pe.active = s.pe.active) ∧
    (∀ h, writesData i = false ∨ h ≠ s.pe.active → t.pe.data h = s.pe.data h) ∧
    (∀ h, writesDir s.par s.pe.active i ≠ some h → t.pe.dir h = s.pe.dir h) ∧
    (writesCol i = false → t.ct.col = s.ct.col) ∧
    (writesSaved i = false → t.ct.saved = s.ct.saved) ∧
    t.par = s.par ∧ t.refusals = s.refusals ∧ t.offers = s.offers ∧ t.resetReq = s.resetReq ∧ t.resets = s.resets

/-- R74: the LCD on a port other than the one active on entry receives nothing of a request, and that port's data lines keep
their levels. -/
def Obligations.OtherPortsSeeNothing : Prop :=
  ∀ (i : Instr) (s t : State) (h : Nat) (prev : Byte), s.seq = .idle → exec i s = .next t → h ≠ s.pe.active →
    t.pe.data h = s.pe.data h ∧ ∃ evs, t.trace = s.trace ++ evs ∧ latches s.par h prev evs = []

/-- R23: the bits of every data register that the block does not drive, with the layout of R7 bits 3:2, are kept by every
request but the two that zero the register. That in another layout those bits are what R7's fields leave of the register is the
model's choice (log 18, log 33). -/
def Obligations.ReservedDataBitsKept : Prop :=
  ∀ (i : Instr) (s t : State) (h : Nat), i ≠ .init → i ≠ .pePortinit → exec i s = .next t →
    rsvOf s.par (t.pe.data h) = rsvOf s.par (s.pe.data h) ∧
    (s.par.specLayout = true → t.pe.data h &&& 0x0C#8 = s.pe.data h &&& 0x0C#8)

/-- R24: a direction register keeps the bits of its width outside `DIR_MASK`, with the layout of R7 bits 3:2, and once its driven
lines are outputs they stay outputs, through every step of either grain. For another `DIR_MASK` or width this is the model's
choice (log 18, log 33). -/
def Obligations.DirectionRegisters : Prop :=
  ∀ (s t : State) (h : Nat), step s = .next t ∨ microStep s = .next t →
    s.par.portVal (t.pe.dir h &&& ~~~s.par.dirMask) = s.par.portVal (s.pe.dir h &&& ~~~s.par.dirMask) ∧
    (s.par.specLayout = true → t.pe.dir h &&& 0x0C#8 = s.pe.dir h &&& 0x0C#8) ∧
    (s.pe.configured s.par h = true → t.pe.configured s.par h = true)

/-- R247: on a port whose driven lines are outputs, the LCD's view of a request's lines is what the latch rule gives.
`drivenLatches` is the model's reading of R247 (log 16), with the output convention of log 27. -/
def Obligations.ConfiguredPortIsDriven : Prop :=
  ∀ (i : Instr) (s t : State) (h : Nat), s.pe.configured s.par h = true → exec i s = .next t →
    ∃ evs, t.trace = s.trace ++ evs ∧
      drivenLatches s.par h (s.pe.dir h) (s.pe.data h) evs = latches s.par h (s.pe.data h) evs

/-- R240: `INIT` leaves RS = 1 and E = 0 on the active port, and every request that neither switches the port nor zeroes it
keeps them. -/
def Obligations.DataModeBetweenRequests : Prop :=
  ∀ s t : State, s.par.specLayout = true → s.seq = .idle →
    (exec .init s = .next t → t.rsReady = true) ∧
    (∀ i, writesActive i = false → i ≠ .pePortinit → s.rsReady = true → exec i s = .next t → t.rsReady = true)

/-- R25: as long as moves are in range, `COL` stays in [0, 16]. -/
def Obligations.ColumnStaysUpToSixteen : Prop :=
  ∀ (i : Instr) (s t : State), s.par.specGeometry = true → s.ct.col.toNat ≤ 16 →
    outOfRangeMove s.par s.ct.col i = false → exec i s = .next t → t.ct.col.toNat ≤ 16

/-! ### The assembler (R87, R88) -/

/-- R87, R88: which requests a source line assembles to: each of the nine forms only with its number of operands, each at most
255, in the order A then B; and `WRITE` one `PUTC` per byte, each at most 255. Anything else is an assembly error. -/
def Obligations.AssemblyNeedsWellFormedLines : Prop :=
  let plain (op : HostOp) (i : Instr) : Prop :=
    ∀ os : List Nat, assemble (.req op os) = if os = [] then some [i] else none
  let one (op : HostOp) (f : Byte → Instr) : Prop :=
    (∀ os : List Nat, os.length ≠ 1 → assemble (.req op os) = none) ∧
    (∀ a : Nat, assemble (.req op [a]) = if a ≤ 255 then some [f (BitVec.ofNat 8 a)] else none)
  let two (op : HostOp) (f : Byte → Byte → Instr) : Prop :=
    (∀ os : List Nat, os.length ≠ 2 → assemble (.req op os) = none) ∧
    (∀ a b : Nat, assemble (.req op [a, b]) =
      if a ≤ 255 ∧ b ≤ 255 then some [f (BitVec.ofNat 8 a) (BitVec.ofNat 8 b)] else none)
  plain .init .init ∧ one .setcfg .setcfg ∧ two .move .move ∧ one .putc .putc ∧ plain .clear .clear ∧
  plain .home .home ∧ one .number .number ∧ one .clrline .clrline ∧ two .clrfrom .clrfrom ∧
  (∀ bytes : List Nat, (∀ b ∈ bytes, b ≤ 255) →
    assemble (.write bytes) = some (bytes.map fun b => .putc (BitVec.ofNat 8 b))) ∧
  (∀ bytes : List Nat, (∃ b ∈ bytes, 255 < b) → assemble (.write bytes) = none) ∧
  (∀ bytes : List Byte, assemble (.write (bytes.map BitVec.toNat)) = some (writeRequests bytes))
end

