-- ==== Sys2Proof/Laws/Assembler.lean ====
section
/-! SUPPORT. What the assembler can do with a line: the two guards written out, one equation per kind of line. -/

namespace Sys2Proof.Machine

theorem literalOk_iff (n : Nat) : literalOk n = true ↔ n ≤ 255 := by
  simp [literalOk]

/-- A request line assembles to one request, of the right count of literals that stand for a u8, and else not at all. -/
theorem assemble_req (op : HostOp) (os : List Nat) :
    assemble (.req op os) =
      if os.length = op.arity ∧ ∀ o ∈ os, o ≤ 255 then
        (assembleReq op (os.map (BitVec.ofNat 8))).map fun i => [i]
      else none := by
  simp [assemble, SourceLine.wellFormed, literalOk_iff]

/-- A text assembles to one `PUTC` a byte when each is a u8, and else not at all. -/
theorem assemble_write (bytes : List Nat) :
    assemble (.write bytes) =
      if ∀ b ∈ bytes, b ≤ 255 then some (bytes.map fun b => .putc (BitVec.ofNat 8 b)) else none := by
  simp [assemble, SourceLine.wellFormed, literalOk_iff]

end Sys2Proof.Machine
end

