-- ==== Sys2Proof/Laws/Decode.lean ====
section
/-! SUPPORT. The fields of a request word and the word of its fields (30_encoding R80, R90). -/

namespace Sys2Proof

/-- Bit `i` of a host request word, by the field it falls in. -/
theorem hostWord_bit (o a b : Byte) (i : Nat) :
    (hostWord o a b).getLsbD i =
      if i < 8 then b.getLsbD i else if i - 8 < 8 then a.getLsbD (i - 8) else o.getLsbD (i - 8 - 8) := by
  change BitVec.getLsbD (w := 8 + 8 + 8) (o ++ a ++ b) i = _
  simp only [BitVec.getLsbD_append]

/-- Bit `i` of a transaction word, by the field it falls in. -/
theorem peWord_bit (k : BitVec 4) (b : Byte) (i : Nat) :
    (peWord k b).getLsbD i = if i < 8 then b.getLsbD i else k.getLsbD (i - 8) := by
  change BitVec.getLsbD (w := 4 + 8) (k ++ b) i = _
  simp only [BitVec.getLsbD_append]

@[simp] theorem hostOpc_hostWord (o a b : Byte) : hostOpc (hostWord o a b) = o := by
  apply BitVec.eq_of_getLsbD_eq
  intro i hi
  simp only [hostOpc, BitVec.getLsbD_extractLsb', hostWord_bit, hi, decide_true, Bool.true_and]
  rw [if_neg (by omega), if_neg (by omega), show 16 + i - 8 - 8 = i by omega]

@[simp] theorem hostA_hostWord (o a b : Byte) : hostA (hostWord o a b) = a := by
  apply BitVec.eq_of_getLsbD_eq
  intro i hi
  simp only [hostA, BitVec.getLsbD_extractLsb', hostWord_bit, hi, decide_true, Bool.true_and]
  rw [if_neg (by omega), if_pos (by omega), show 8 + i - 8 = i by omega]

@[simp] theorem hostB_hostWord (o a b : Byte) : hostB (hostWord o a b) = b := by
  apply BitVec.eq_of_getLsbD_eq
  intro i hi
  simp only [hostB, BitVec.getLsbD_extractLsb', hostWord_bit, hi, decide_true, Bool.true_and]
  rw [if_pos (by omega), show 0 + i = i by omega]

@[simp] theorem peKind_peWord (k : BitVec 4) (b : Byte) : peKind (peWord k b) = k := by
  apply BitVec.eq_of_getLsbD_eq
  intro i hi
  simp only [peKind, BitVec.getLsbD_extractLsb', peWord_bit, hi, decide_true, Bool.true_and]
  rw [if_neg (by omega), show 8 + i - 8 = i by omega]

@[simp] theorem peOpd_peWord (k : BitVec 4) (b : Byte) : peOpd (peWord k b) = b := by
  apply BitVec.eq_of_getLsbD_eq
  intro i hi
  simp only [peOpd, BitVec.getLsbD_extractLsb', peWord_bit, hi, decide_true, Bool.true_and]
  rw [if_pos (by omega), show 0 + i = i by omega]

/-- A host request word is the word of its fields. -/
theorem hostWord_fields (w : BitVec 24) : hostWord (hostOpc w) (hostA w) (hostB w) = w := by
  apply BitVec.eq_of_getLsbD_eq
  intro i hi
  simp only [hostWord_bit, hostOpc, hostA, hostB, BitVec.getLsbD_extractLsb']
  by_cases h1 : i < 8
  · simp [h1]
  · by_cases h2 : i - 8 < 8
    · simp [h1, h2, show 8 + (i - 8) = i by omega]
    · simp [h1, h2, show 16 + (i - 8 - 8) = i by omega, show i - 8 - 8 < 8 by omega]

/-- A transaction word is the word of its fields. -/
theorem peWord_fields (w : BitVec 12) : peWord (peKind w) (peOpd w) = w := by
  apply BitVec.eq_of_getLsbD_eq
  intro i hi
  simp only [peWord_bit, peKind, peOpd, BitVec.getLsbD_extractLsb']
  by_cases h1 : i < 8
  · simp [h1]
  · simp [h1, show 8 + (i - 8) = i by omega, show i - 8 < 4 by omega]

/-! ### Which interface a request comes by (R93) -/

theorem mustBeZero_ok {unused : Bool} {w : BitVec 24} {i j : Instr} (h : mustBeZero unused w i = .ok j) : i = j := by
  unfold mustBeZero at h
  split at h
  · injection h
  · cases h

/-- A host word is never read as a transaction of the PE. -/
theorem decodeHost_isPe {w : BitVec 24} {i : Instr} (h : decodeHost w = .ok i) : i.isPe = false := by
  unfold decodeHost at h
  dsimp only at h
  split at h
  all_goals first
    | (cases h; rfl)
    | (rw [← mustBeZero_ok h]; rfl)
    | cases h

/-- A `PE12` word is read as nothing else. -/
theorem decodePe_isPe {w : BitVec 12} {i : Instr} (h : decodePe w = .ok i) : i.isPe = true := by
  unfold decodePe at h
  dsimp only at h
  split at h
  all_goals first
    | (cases h; rfl)
    | (split at h <;> first | (cases h; rfl) | cases h)
    | cases h

/-! ### Masking, field by field (R84) -/

theorem hostWord_inj {o a b o' a' b' : Byte} : hostWord o a b = hostWord o' a' b' ↔ o = o' ∧ a = a' ∧ b = b' := by
  constructor
  · intro h
    exact ⟨by simpa using congrArg hostOpc h, by simpa using congrArg hostA h, by simpa using congrArg hostB h⟩
  · rintro ⟨rfl, rfl, rfl⟩; rfl

theorem peWord_inj {k k' : BitVec 4} {b b' : Byte} : peWord k b = peWord k' b' ↔ k = k' ∧ b = b' := by
  constructor
  · intro h
    exact ⟨by simpa using congrArg peKind h, by simpa using congrArg peOpd h⟩
  · rintro ⟨rfl, rfl⟩; rfl

theorem hostWord_and (o a b o' a' b' : Byte) :
    hostWord o a b &&& hostWord o' a' b' = hostWord (o &&& o') (a &&& a') (b &&& b') := by
  apply BitVec.eq_of_getLsbD_eq
  intro i hi
  simp only [BitVec.getLsbD_and, hostWord_bit]
  split <;> [skip; split] <;> simp

theorem peWord_and (k k' : BitVec 4) (b b' : Byte) : peWord k b &&& peWord k' b' = peWord (k &&& k') (b &&& b') := by
  apply BitVec.eq_of_getLsbD_eq
  intro i hi
  simp only [BitVec.getLsbD_and, peWord_bit]
  split <;> simp

/-- The mask test of a host row, with mask and pattern written as words of fields. -/
theorem host_mask_test (w : BitVec 24) {m p : Nat} {mo ma mb po pa pb : Byte}
    (hm : BitVec.ofNat 24 m = hostWord mo ma mb) (hp : BitVec.ofNat 24 p = hostWord po pa pb) :
    (w &&& BitVec.ofNat 24 m == BitVec.ofNat 24 p) =
      (decide (hostOpc w &&& mo = po) && (decide (hostA w &&& ma = pa) && decide (hostB w &&& mb = pb))) := by
  rw [hm, hp]
  conv_lhs => rw [← hostWord_fields w]
  rw [hostWord_and, Bool.eq_iff_iff]
  simp [hostWord_inj]

/-- The mask test of a transaction row, with mask and pattern written as words of fields. -/
theorem pe_mask_test (w : BitVec 12) {m p : Nat} {mk pk : BitVec 4} {mo po : Byte}
    (hm : BitVec.ofNat 12 m = peWord mk mo) (hp : BitVec.ofNat 12 p = peWord pk po) :
    (w &&& BitVec.ofNat 12 m == BitVec.ofNat 12 p) =
      (decide (peKind w &&& mk = pk) && decide (peOpd w &&& mo = po)) := by
  rw [hm, hp]
  conv_lhs => rw [← peWord_fields w]
  rw [peWord_and, Bool.eq_iff_iff]
  simp [peWord_inj]

end Sys2Proof
end

