-- ==== Sys2Proof/Laws/Params.lean ====
section
/-! SUPPORT. The parameters of 00_scope R7: what a value of a width is, and what the rules' terms are at the values R7 gives. -/

namespace Sys2Proof.Machine

/-! ### Widths -/

/-- A byte is a value of 8 bits. -/
theorem and_widthMask_eight (v : Byte) : v &&& widthMask 8 = v := by revert v; decide

/-- What is kept is of the width: keeping it again changes nothing. -/
@[simp] theorem portVal_portVal (p : Params) (v : Byte) : p.portVal (p.portVal v) = p.portVal v := by
  simp [Params.portVal, BitVec.and_assoc]

@[simp] theorem colVal_colVal (p : Params) (v : Byte) : p.colVal (p.colVal v) = p.colVal v := by
  simp [Params.colVal, BitVec.and_assoc]

@[simp] theorem operand_operand (p : Params) (v : Byte) : p.operand (p.operand v) = p.operand v := by
  simp [Params.operand, BitVec.and_assoc]

/-- 0 is a value of every width. -/
@[simp] theorem portVal_zero (p : Params) : p.portVal 0#8 = 0#8 := by simp [Params.portVal]

@[simp] theorem colVal_zero (p : Params) : p.colVal 0#8 = 0#8 := by simp [Params.colVal]

@[simp] theorem operand_zero (p : Params) : p.operand 0#8 = 0#8 := by simp [Params.operand]

/-- Bit by bit, a port register keeps the bits below `PORT_WIDTH`. -/
theorem portVal_and (p : Params) (v m : Byte) : p.portVal v &&& m = p.portVal (v &&& m) := by
  simp only [Params.portVal, BitVec.and_assoc, BitVec.and_comm m]

/-- The bits the block does not drive are bits of the port register, so cutting a value to the register keeps them. -/
theorem rsvOf_portVal (p : Params) (v : Byte) : rsvOf p (p.portVal v) = rsvOf p v := by
  simp only [rsvOf, Params.rsvMask, Params.portVal]
  generalize widthMask p.portWidth = w
  ext i hi
  simp only [BitVec.getElem_and]
  cases v[i] <;> cases w[i] <;> simp

/-- What `DIRCFG` writes has every driven line an output (R24). -/
theorem dirCfg_and_drivenMask (p : Params) (d : Byte) : p.portVal (d ||| p.dirMask) &&& p.drivenMask = p.drivenMask := by
  simp only [Params.drivenMask, Params.portVal]
  generalize widthMask p.portWidth = w
  generalize p.dirMask = m
  ext i hi
  simp only [BitVec.getElem_and, BitVec.getElem_or]
  cases w[i] <;> cases m[i] <;> simp

/-- At the widths R7 gives the column and the operands, both keep every value whole. -/
theorem specWidths_colVal {p : Params} (h : p.specWidths = true) (v : Byte) : p.colVal v = v := by
  simp only [Params.specWidths, Bool.and_eq_true, beq_iff_eq] at h
  rw [Params.colVal, h.1, and_widthMask_eight]

theorem specWidths_operand {p : Params} (h : p.specWidths = true) (v : Byte) : p.operand v = v := by
  simp only [Params.specWidths, Bool.and_eq_true, beq_iff_eq] at h
  rw [Params.operand, h.2, and_widthMask_eight]

theorem specWidths_handleOf {p : Params} (h : p.specWidths = true) (v : Byte) : handleOf p v = v.toNat := by
  rw [handleOf, specWidths_operand h]

/-! ### The parameters at R7's values -/

/-- The geometry R7 gives, value by value. -/
theorem specGeometry_iff (p : Params) :
    p.specGeometry = true ↔
      p.specWidths = true ∧ p.rows = 2 ∧ p.cols = 16 ∧ p.rowShift = 6 ∧ p.wrapCol = 16#8 := by
  simp [Params.specGeometry, and_assoc]

/-- The layout R7 gives, value by value. -/
theorem specLayout_iff (p : Params) :
    p.specLayout = true ↔
      p.portWidth = 8 ∧ p.nibbleLow = 4 ∧ p.rsBit = 1 ∧ p.eBit = 0 ∧ p.dirMask = 0xF3#8 := by
  simp [Params.specLayout, and_assoc]

/-- With that layout a port register keeps every value whole. -/
theorem specLayout_portVal {p : Params} (h : p.specLayout = true) (v : Byte) : p.portVal v = v := by
  simp [Params.portVal, ((specLayout_iff p).1 h).1, and_widthMask_eight]

/-- With that layout the masks are those R100 prints. -/
theorem specLayout_masks {p : Params} (h : p.specLayout = true) :
    p.nibbleMask = 0xF0#8 ∧ p.rsMask = 0x02#8 ∧ p.eMask = 0x01#8 ∧ p.rsvMask = 0x0C#8 ∧
      p.dirMask = 0xF3#8 ∧ p.drivenMask = 0xF3#8 := by
  obtain ⟨_, h1, h2, h3, h4⟩ := (specLayout_iff p).1 h
  simp [Params.nibbleMask, Params.rsMask, Params.eMask, Params.rsvMask, Params.drivenMask, specLayout_portVal h, h1, h2, h3,
    h4]

/-- With that layout the operands of a byte's two nibble frames are those R103 prints. -/
theorem specLayout_inPlace {p : Params} (h : p.specLayout = true) (b : Byte) :
    hiInPlace p b = b &&& 0xF0#8 ∧ loInPlace p b = (b &&& 0x0F#8) <<< 4 := by
  simp only [hiInPlace, loInPlace, inPlace, ((specLayout_iff p).1 h).2.1]
  revert b; decide

/-- With that layout the fields are those R71 draws. -/
theorem specLayout_fields {p : Params} (h : p.specLayout = true) (v : Byte) :
    eOf p v = v.getLsbD 0 ∧ rsOf p v = v.getLsbD 1 ∧ dbOf p v = v.extractLsb' 4 4 ∧ rsvOf p v = v &&& 0x0C#8 := by
  obtain ⟨_, h1, h2, h3, _⟩ := (specLayout_iff p).1 h
  simp [eOf, rsOf, dbOf, rsvOf, h1, h2, h3, (specLayout_masks h).2.2.2.1]

/-- That geometry includes the widths of the column and the operands. -/
theorem specGeometry_specWidths {p : Params} (h : p.specGeometry = true) : p.specWidths = true :=
  ((specGeometry_iff p).1 h).1

/-- With that geometry the range of a move is R142's, and so the wrap's own move is in range. -/
theorem specGeometry_inRange {p : Params} (h : p.specGeometry = true) (r c : Byte) :
    inRange p r c = (decide (r.toNat < 2) && decide (c.toNat < 16)) := by
  obtain ⟨_, h1, h2, _⟩ := (specGeometry_iff p).1 h
  simp [inRange, h1, h2]

/-! ### The operands of nibble frames, for every layout -/

/-- A nibble in its place has no bit outside `DATA_NIBBLE_BITS`, as `PUT` needs (R100). -/
theorem inPlace_and (p : Params) (n : Nibble) : inPlace p n &&& ~~~p.nibbleMask = 0#8 := by
  apply BitVec.eq_of_getLsbD_eq
  intro i hi
  simp only [inPlace, Params.nibbleMask, BitVec.getLsbD_and, BitVec.getLsbD_not, BitVec.getLsbD_shiftLeft,
    BitVec.getLsbD_setWidth, BitVec.getLsbD_zero, hi, decide_true, Bool.true_and]
  by_cases h : i < p.nibbleLow
  · simp [h]
  · have h15 : ∀ k, k < 8 → (0x0F#8).getLsbD k = decide (k < 4) := by decide
    rw [h15 _ (by omega)]
    by_cases h4 : i - p.nibbleLow < 4
    · simp [h4, h]
    · simp [BitVec.getLsbD_of_ge n (i - p.nibbleLow) (by omega)]

end Sys2Proof.Machine
end

