-- ==== Sys2Proof/Laws/PerInstr.lean ====
section
/-! SUPPORT. Statements made of every instruction, one lemma per constructor.

`RowMatch`: an instruction's word matches, in its own format, the row of spec/opcode_table.json that bears its mnemonic
(30_encoding R84). -/

namespace Sys2Proof.Laws.RowMatch

/-- The opcode table has a row with the instruction's mnemonic, and the instruction's word matches it. -/
def Statement (i : Instr) : Prop :=
  ∃ row ∈ opcodeTable, row.mnemonic = i.mnemonic ∧ row.matchesWord (encode i) = true

theorem init : Statement .init :=
  ⟨⟨"INIT", .host24, 0x010000, 0xFFFFFF⟩, by simp [opcodeTable], rfl, by decide⟩

theorem setcfg (h : Byte) : Statement (.setcfg h) := by
  refine ⟨⟨"SETCFG", .host24, 0x020000, 0xFF00FF⟩, by simp [opcodeTable], rfl, ?_⟩
  simp only [encode, TableRow.matchesWord]
  rw [host_mask_test _ (mo := 0xFF#8) (ma := 0x00#8) (mb := 0xFF#8)
    (po := 0x02#8) (pa := 0x00#8) (pb := 0x00#8) rfl rfl]
  simp

theorem move (r c : Byte) : Statement (.move r c) := by
  refine ⟨⟨"MOVE", .host24, 0x030000, 0xFF0000⟩, by simp [opcodeTable], rfl, ?_⟩
  simp only [encode, TableRow.matchesWord]
  rw [host_mask_test _ (mo := 0xFF#8) (ma := 0x00#8) (mb := 0x00#8)
    (po := 0x03#8) (pa := 0x00#8) (pb := 0x00#8) rfl rfl]
  simp

theorem putc (ch : Byte) : Statement (.putc ch) := by
  refine ⟨⟨"PUTC", .host24, 0x040000, 0xFF00FF⟩, by simp [opcodeTable], rfl, ?_⟩
  simp only [encode, TableRow.matchesWord]
  rw [host_mask_test _ (mo := 0xFF#8) (ma := 0x00#8) (mb := 0xFF#8)
    (po := 0x04#8) (pa := 0x00#8) (pb := 0x00#8) rfl rfl]
  simp

theorem clear : Statement .clear :=
  ⟨⟨"CLEAR", .host24, 0x050000, 0xFFFFFF⟩, by simp [opcodeTable], rfl, by decide⟩

theorem home : Statement .home :=
  ⟨⟨"HOME", .host24, 0x060000, 0xFFFFFF⟩, by simp [opcodeTable], rfl, by decide⟩

theorem number (n : Byte) : Statement (.number n) := by
  refine ⟨⟨"NUMBER", .host24, 0x070000, 0xFF00FF⟩, by simp [opcodeTable], rfl, ?_⟩
  simp only [encode, TableRow.matchesWord]
  rw [host_mask_test _ (mo := 0xFF#8) (ma := 0x00#8) (mb := 0xFF#8)
    (po := 0x07#8) (pa := 0x00#8) (pb := 0x00#8) rfl rfl]
  simp

theorem clrline (c : Byte) : Statement (.clrline c) := by
  refine ⟨⟨"CLRLINE", .host24, 0x080000, 0xFF00FF⟩, by simp [opcodeTable], rfl, ?_⟩
  simp only [encode, TableRow.matchesWord]
  rw [host_mask_test _ (mo := 0xFF#8) (ma := 0x00#8) (mb := 0xFF#8)
    (po := 0x08#8) (pa := 0x00#8) (pb := 0x00#8) rfl rfl]
  simp

theorem clrfrom (x y : Byte) : Statement (.clrfrom x y) := by
  refine ⟨⟨"CLRFROM", .host24, 0x090000, 0xFF0000⟩, by simp [opcodeTable], rfl, ?_⟩
  simp only [encode, TableRow.matchesWord]
  rw [host_mask_test _ (mo := 0xFF#8) (ma := 0x00#8) (mb := 0x00#8)
    (po := 0x09#8) (pa := 0x00#8) (pb := 0x00#8) rfl rfl]
  simp

theorem peCmd (b : Byte) : Statement (.peCmd b) := by
  refine ⟨⟨"PE.CMD", .pe12, 0x000, 0xF00⟩, by simp [opcodeTable], rfl, ?_⟩
  simp only [encode, TableRow.matchesWord]
  rw [pe_mask_test _ (mk := 0xF#4) (mo := 0x00#8)
    (pk := 0x0#4) (po := 0x00#8) rfl rfl]
  simp

theorem peData (b : Byte) : Statement (.peData b) := by
  refine ⟨⟨"PE.DATA", .pe12, 0x100, 0xF00⟩, by simp [opcodeTable], rfl, ?_⟩
  simp only [encode, TableRow.matchesWord]
  rw [pe_mask_test _ (mk := 0xF#4) (mo := 0x00#8)
    (pk := 0x1#4) (po := 0x00#8) rfl rfl]
  simp

theorem pePortinit : Statement .pePortinit :=
  ⟨⟨"PE.PORTINIT", .pe12, 0x200, 0xFFF⟩, by simp [opcodeTable], rfl, by decide⟩

theorem peSelect (h : Byte) : Statement (.peSelect h) := by
  refine ⟨⟨"PE.SELECT", .pe12, 0x300, 0xF00⟩, by simp [opcodeTable], rfl, ?_⟩
  simp only [encode, TableRow.matchesWord]
  rw [pe_mask_test _ (mk := 0xF#4) (mo := 0x00#8)
    (pk := 0x3#4) (po := 0x00#8) rfl rfl]
  simp

end Sys2Proof.Laws.RowMatch
end

