-- ==== Sys2Proof/Laws/Ports.lean ====
section
/-! SUPPORT. The port memory: reading after writing, and that every write keeps the canonical form (20_memory R54). -/

namespace Sys2Proof.Machine

theorem isHandle_iff_lt (p : Params) (h : Nat) : p.isHandle h = true ↔ h < p.nPorts := by
  cases h with
  | zero => simp [Params.isHandle, Params.nPorts]
  | succ k => simp [Params.isHandle, Params.nPorts, Nat.blt_eq]

theorem dataKey_inj {h k : Nat} : dataKey h = dataKey k ↔ h = k := by
  simp only [dataKey]; omega

theorem dirKey_inj {h k : Nat} : dirKey h = dirKey k ↔ h = k := by
  simp only [dirKey]; omega

theorem dataKey_ne_dirKey (h k : Nat) : dataKey h ≠ dirKey k := by
  simp only [dataKey, dirKey]; omega

theorem dirKey_ne_dataKey (h k : Nat) : dirKey h ≠ dataKey k := by
  simp only [dataKey, dirKey]; omega

@[simp] theorem portGet_portWrite_self (m : List Host.Cell) (a : Nat) (v : Byte) :
    portGet (portWrite m a v) a = some v := by
  induction m with
  | nil => simp [portWrite, portGet]
  | cons c rest ih =>
    obtain ⟨k, b⟩ := c
    simp only [portWrite]
    split
    · simp [portGet]
    · split
      · simp [portGet]
      · simp only [portGet]
        rw [if_neg (by omega)]
        exact ih

theorem portGet_portWrite_ne (m : List Host.Cell) {a b : Nat} (v : Byte) (h : b ≠ a) :
    portGet (portWrite m a v) b = portGet m b := by
  induction m with
  | nil => simp [portWrite, portGet, h.symm]
  | cons c rest ih =>
    obtain ⟨k, d⟩ := c
    simp only [portWrite]
    split
    · simp [portGet, h.symm]
    · split
      · next he => subst he; simp [portGet, h.symm]
      · simp only [portGet, ih]

/-- A register reads as the value last written (R54). -/
@[simp] theorem portRead_portWrite_self (m : List Host.Cell) (a : Nat) (v : Byte) :
    portRead (portWrite m a v) a = v := by
  simp [portRead]

/-- A write leaves every other register alone. -/
theorem portRead_portWrite_ne (m : List Host.Cell) {a b : Nat} (v : Byte) (h : b ≠ a) :
    portRead (portWrite m a v) b = portRead m b := by
  simp [portRead, portGet_portWrite_ne m v h]

/-- A second write to a register replaces the first. -/
@[simp] theorem portWrite_portWrite_self (m : List Host.Cell) (a : Nat) (v w : Byte) :
    portWrite (portWrite m a v) a w = portWrite m a w := by
  induction m with
  | nil => simp [portWrite]
  | cons c rest ih =>
    obtain ⟨k, d⟩ := c
    by_cases h1 : a < k
    · simp [portWrite, h1]
    · by_cases h2 : a = k
      · subst h2; simp [portWrite]
      · simp [portWrite, h1, h2, ih]

theorem portsAbove_portWrite (m : List Host.Cell) (a : Nat) (v : Byte) (lo : Option Nat)
    (hm : portsAbove lo m = true) (hlo : ∀ l, lo = some l → l < a) :
    portsAbove lo (portWrite m a v) = true := by
  induction m generalizing lo with
  | nil =>
    cases lo with
    | none => rfl
    | some l => simp [portWrite, portsAbove, hlo l rfl]
  | cons c rest ih =>
    obtain ⟨k, d⟩ := c
    simp only [portsAbove, Bool.and_eq_true] at hm
    by_cases h1 : a < k
    · simp only [portWrite, h1, if_true, portsAbove, Bool.and_eq_true]
      refine ⟨?_, by simp, hm.2⟩
      cases lo with
      | none => rfl
      | some l => simpa using hlo l rfl
    · by_cases h2 : a = k
      · subst h2
        simp_all [portWrite, portsAbove]
      · simp only [portWrite, h1, h2, if_false, portsAbove, Bool.and_eq_true]
        exact ⟨hm.1, ih (some k) hm.2 (by rintro l ⟨⟩; omega)⟩

/-- Every write keeps the canonical form of the port memory. -/
theorem portsWf_portWrite (m : List Host.Cell) (a : Nat) (v : Byte) (hm : portsWf m = true) :
    portsWf (portWrite m a v) = true :=
  portsAbove_portWrite m a v none hm (by simp)

/-- A write to a register of a member handle lists no other register. -/
theorem portsBelow_portWrite (n : Nat) (m : List Host.Cell) (a : Nat) (v : Byte)
    (hm : portsBelow n m = true) (ha : a < 2 * n) : portsBelow n (portWrite m a v) = true := by
  induction m with
  | nil => simpa [portWrite, portsBelow] using ha
  | cons c rest ih =>
    obtain ⟨k, d⟩ := c
    simp only [portsBelow, Bool.and_eq_true, decide_eq_true_eq] at hm
    simp only [portWrite]
    split
    · simp [portsBelow, ha, hm]
    · split
      · simp [portsBelow, ha, hm]
      · simp [portsBelow, hm, ih hm.2]

/-- The port memory of the reset state has the canonical form. -/
theorem portsWf_reset : portsWf State.reset.pe.ports = true := rfl

/-! ### The registers seen through `Pe` -/

@[simp] theorem writeData_active (p : Pe) (h : Nat) (v : Byte) : (p.writeData h v).1.active = p.active := rfl

@[simp] theorem writeDir_active (p : Pe) (h : Nat) (v : Byte) : (p.writeDir h v).1.active = p.active := rfl

@[simp] theorem writeData_events (p : Pe) (h : Nat) (v : Byte) : (p.writeData h v).2 = [.wrData h v] := rfl

@[simp] theorem writeDir_events (p : Pe) (h : Nat) (v : Byte) : (p.writeDir h v).2 = [.wrDir h v] := rfl

theorem writeData_data (p : Pe) (h k : Nat) (v : Byte) :
    (p.writeData h v).1.data k = if k = h then v else p.data k := by
  by_cases hk : k = h
  · subst hk; simp [Pe.writeData, Pe.data]
  · rw [if_neg hk]
    exact portRead_portWrite_ne _ _ (by rw [Ne, dataKey_inj]; exact hk)

@[simp] theorem writeData_dir (p : Pe) (h k : Nat) (v : Byte) : (p.writeData h v).1.dir k = p.dir k :=
  portRead_portWrite_ne _ _ (dirKey_ne_dataKey k h)

theorem writeDir_dir (p : Pe) (h k : Nat) (v : Byte) :
    (p.writeDir h v).1.dir k = if k = h then v else p.dir k := by
  by_cases hk : k = h
  · subst hk; simp [Pe.writeDir, Pe.dir]
  · rw [if_neg hk]
    exact portRead_portWrite_ne _ _ (by rw [Ne, dirKey_inj]; exact hk)

@[simp] theorem writeDir_data (p : Pe) (h k : Nat) (v : Byte) : (p.writeDir h v).1.data k = p.data k :=
  portRead_portWrite_ne _ _ (dataKey_ne_dirKey k h)

end Sys2Proof.Machine
end

