-- ==== Sys2Proof/Laws/State.lean ====
section
/-! SUPPORT. What each update of the state does to each field, true by rfl: no later proof unfolds a record update. -/

namespace Sys2Proof.Machine

/-! ### `raise` -/

@[simp] theorem raise_par (s : State) (f : Fault) : (s.raise f).par = s.par := rfl
@[simp] theorem raise_pe (s : State) (f : Fault) : (s.raise f).pe = s.pe := rfl
@[simp] theorem raise_ct (s : State) (f : Fault) : (s.raise f).ct = s.ct := rfl
@[simp] theorem raise_seq (s : State) (f : Fault) : (s.raise f).seq = .faulted f := rfl
@[simp] theorem raise_refusals (s : State) (f : Fault) : (s.raise f).refusals = s.refusals := rfl
@[simp] theorem raise_trace (s : State) (f : Fault) : (s.raise f).trace = s.trace := rfl
@[simp] theorem raise_offers (s : State) (f : Fault) : (s.raise f).offers = s.offers := rfl
@[simp] theorem raise_resetReq (s : State) (f : Fault) : (s.raise f).resetReq = s.resetReq := rfl
@[simp] theorem raise_resets (s : State) (f : Fault) : (s.raise f).resets = s.resets := rfl

/-! ### The words still to be offered -/

@[simp] theorem pop_host_nil : (Offers.host []).pop = none := rfl
@[simp] theorem pop_host_cons (w : BitVec 24) (ws : List (BitVec 24)) :
    (Offers.host (w :: ws)).pop = some (.host w, .host ws) := rfl
@[simp] theorem pop_peAlone_nil : (Offers.peAlone []).pop = none := rfl
@[simp] theorem pop_peAlone_cons (w : BitVec 12) (ws : List (BitVec 12)) :
    (Offers.peAlone (w :: ws)).pop = some (.pe w, .peAlone ws) := rfl

/-- Taking a word keeps what is modelled. -/
theorem pop_isPe {o rest : Offers} {c : CodeWord} (h : o.pop = some (c, rest)) : rest.isPe = o.isPe := by
  rcases o with (_ | ⟨w, ws⟩) | (_ | ⟨w, ws⟩)
  · cases h
  · cases h; rfl
  · cases h
  · cases h; rfl

/-- A word of the interface that is modelled, put first, is the next one taken, and the others stay. -/
theorem pop_push_host (w : BitVec 24) (ws : List (BitVec 24)) :
    ((Offers.host ws).push (.host w)).pop = some (.host w, .host ws) := rfl

theorem pop_push_pe (w : BitVec 12) (ws : List (BitVec 12)) :
    ((Offers.peAlone ws).push (.pe w)).pop = some (.pe w, .peAlone ws) := rfl

/-- A word put first is the next one taken. -/
theorem pop_push (o : Offers) (c : CodeWord) : ∃ rest, (o.push c).pop = some (c, rest) := by
  cases c <;> cases o <;> exact ⟨_, rfl⟩

/-! ### `refuse` -/

@[simp] theorem refuse_par (s : State) (r : Reject) : (s.refuse r).par = s.par := rfl
@[simp] theorem refuse_pe (s : State) (r : Reject) : (s.refuse r).pe = s.pe := rfl
@[simp] theorem refuse_ct (s : State) (r : Reject) : (s.refuse r).ct = s.ct := rfl
@[simp] theorem refuse_seq (s : State) (r : Reject) : (s.refuse r).seq = s.seq := rfl
@[simp] theorem refuse_refusals (s : State) (r : Reject) : (s.refuse r).refusals = s.refusals ++ [r] := rfl
@[simp] theorem refuse_trace (s : State) (r : Reject) : (s.refuse r).trace = s.trace := rfl
@[simp] theorem refuse_offers (s : State) (r : Reject) : (s.refuse r).offers = s.offers := rfl
@[simp] theorem refuse_resetReq (s : State) (r : Reject) : (s.refuse r).resetReq = s.resetReq := rfl
@[simp] theorem refuse_resets (s : State) (r : Reject) : (s.refuse r).resets = s.resets := rfl

/-! ### `blockReset` -/

@[simp] theorem blockReset_par (s : State) : s.blockReset.par = s.par := rfl
@[simp] theorem blockReset_active (s : State) : s.blockReset.pe.active = s.par.initialHandle := rfl
@[simp] theorem blockReset_ports (s : State) : s.blockReset.pe.ports = s.pe.ports := rfl
@[simp] theorem blockReset_col (s : State) : s.blockReset.ct.col = 0#8 := rfl
@[simp] theorem blockReset_misuse (s : State) : s.blockReset.ct.misuse = false := rfl
@[simp] theorem blockReset_seq (s : State) : s.blockReset.seq = .idle := rfl
@[simp] theorem blockReset_refusals (s : State) : s.blockReset.refusals = [] := rfl
@[simp] theorem blockReset_trace (s : State) : s.blockReset.trace = s.trace := rfl
@[simp] theorem blockReset_offers (s : State) : s.blockReset.offers = s.offers := rfl
@[simp] theorem blockReset_resetReq (s : State) : s.blockReset.resetReq = false := rfl
@[simp] theorem blockReset_resets (s : State) : s.blockReset.resets = s.resets + 1 := rfl

/-! ### One micro-operation -/

@[simp] theorem run_pe_pe (op : PeOp) (s : State) : ((MicroOp.pe op).run s).pe = (op.run s.par s.pe).1 := rfl
@[simp] theorem run_pe_ct (op : PeOp) (s : State) : ((MicroOp.pe op).run s).ct = s.ct := rfl
@[simp] theorem run_pe_trace (op : PeOp) (s : State) :
    ((MicroOp.pe op).run s).trace = s.trace ++ (op.run s.par s.pe).2 := rfl
@[simp] theorem run_ct_pe (op : CtOp) (s : State) : ((MicroOp.ct op).run s).pe = s.pe := rfl
@[simp] theorem run_ct_ct (op : CtOp) (s : State) : ((MicroOp.ct op).run s).ct = op.run s.par s.ct := rfl
@[simp] theorem run_ct_trace (op : CtOp) (s : State) : ((MicroOp.ct op).run s).trace = s.trace := rfl
@[simp] theorem run_par (m : MicroOp) (s : State) : (m.run s).par = s.par := by cases m <;> rfl
@[simp] theorem run_seq (m : MicroOp) (s : State) : (m.run s).seq = s.seq := by cases m <;> rfl
@[simp] theorem run_refusals (m : MicroOp) (s : State) : (m.run s).refusals = s.refusals := by cases m <;> rfl
@[simp] theorem run_offers (m : MicroOp) (s : State) : (m.run s).offers = s.offers := by cases m <;> rfl
@[simp] theorem run_resetReq (m : MicroOp) (s : State) : (m.run s).resetReq = s.resetReq := by cases m <;> rfl
@[simp] theorem run_resets (m : MicroOp) (s : State) : (m.run s).resets = s.resets := by cases m <;> rfl

/-! ### Many micro-operations -/

@[simp] theorem runMicro_nil (s : State) : s.runMicro [] = s := rfl

@[simp] theorem runMicro_cons (s : State) (m : MicroOp) (rest : List MicroOp) :
    s.runMicro (m :: rest) = (m.run s).runMicro rest := rfl

theorem runMicro_append (s : State) (xs ys : List MicroOp) :
    s.runMicro (xs ++ ys) = (s.runMicro xs).runMicro ys := by
  induction xs generalizing s with
  | nil => rfl
  | cons m rest ih => simp [ih]

@[simp] theorem runMicro_par (s : State) (ms : List MicroOp) : (s.runMicro ms).par = s.par := by
  induction ms generalizing s with
  | nil => rfl
  | cons m rest ih => simp [ih]

@[simp] theorem runMicro_seq (s : State) (ms : List MicroOp) : (s.runMicro ms).seq = s.seq := by
  induction ms generalizing s with
  | nil => rfl
  | cons m rest ih => simp [ih]

@[simp] theorem runMicro_refusals (s : State) (ms : List MicroOp) : (s.runMicro ms).refusals = s.refusals := by
  induction ms generalizing s with
  | nil => rfl
  | cons m rest ih => simp [ih]

@[simp] theorem runMicro_offers (s : State) (ms : List MicroOp) : (s.runMicro ms).offers = s.offers := by
  induction ms generalizing s with
  | nil => rfl
  | cons m rest ih => simp [ih]

@[simp] theorem runMicro_resetReq (s : State) (ms : List MicroOp) : (s.runMicro ms).resetReq = s.resetReq := by
  induction ms generalizing s with
  | nil => rfl
  | cons m rest ih => simp [ih]

@[simp] theorem runMicro_resets (s : State) (ms : List MicroOp) : (s.runMicro ms).resets = s.resets := by
  induction ms generalizing s with
  | nil => rfl
  | cons m rest ih => simp [ih]

end Sys2Proof.Machine
end

