-- ==== Sys2Proof/Laws/Serve.lean ====
section
/-! SUPPORT. What the shared operations can do, said once: serving a request, taking an offer, the two step functions; and
that every meaning is the service of its pseudocode. -/

namespace Sys2Proof.Machine

/-! ### Serving a request -/

theorem serve_idle {s : State} (h : s.seq = .idle) (f : Option Fault) (sc : Script) :
    s.serve f sc = .next (s.carryOut f sc) := by
  simp [State.serve, h]

theorem serve_busy {s : State} {r : Instr} {k : Nat} {ops : List MicroOp} (h : s.seq = .busy r k ops)
    (f : Option Fault) (sc : Script) : s.serve f sc = .next s := by
  simp [State.serve, h]

theorem serve_faulted {s : State} {e : Fault} (h : s.seq = .faulted e) (f : Option Fault) (sc : Script) :
    s.serve f sc = .fault e := by
  simp [State.serve, h]

/-- If serving answers a next state, the block was idle and carried the request out, or busy and unchanged. -/
theorem serve_next_cases {s t : State} {f : Option Fault} {sc : Script} (h : s.serve f sc = .next t) :
    (s.seq = .idle ∧ t = s.carryOut f sc) ∨ ((∃ r k ops, s.seq = .busy r k ops) ∧ t = s) := by
  cases hs : s.seq with
  | idle => rw [serve_idle hs] at h; injection h with h; exact .inl ⟨rfl, h.symm⟩
  | busy r k ops => rw [serve_busy hs] at h; injection h with h; exact .inr ⟨⟨r, k, ops, rfl⟩, h.symm⟩
  | faulted e => rw [serve_faulted hs] at h; cases h

/-- A request with no fault runs its expansion. -/
@[simp] theorem carryOut_none (s : State) (sc : Script) : s.carryOut none sc = s.runMicro (s.expand sc) := rfl

/-- A request with a fault raises it. -/
@[simp] theorem carryOut_some (s : State) (f : Fault) (sc : Script) : s.carryOut (some f) sc = s.raise f := rfl

/-- Every meaning is the service of its pseudocode, with its handle check (R201, R204). -/
theorem exec_eq_serve (i : Instr) (s : State) : exec i s = s.serve (faultOf s.par i) (scriptOf s.par i) := by
  cases i <;> rfl

theorem exec_idle {s : State} (h : s.seq = .idle) (i : Instr) :
    exec i s = .next (s.carryOut (faultOf s.par i) (scriptOf s.par i)) := by
  rw [exec_eq_serve, serve_idle h]

/-- If a meaning answers a next state, the request was carried out, or the block was busy and nothing changed. -/
theorem exec_next_cases {i : Instr} {s t : State} (h : exec i s = .next t) :
    (s.seq = .idle ∧ t = s.carryOut (faultOf s.par i) (scriptOf s.par i)) ∨
      ((∃ r k ops, s.seq = .busy r k ops) ∧ t = s) := by
  rw [exec_eq_serve] at h
  exact serve_next_cases h

/-! ### Taking an offer and stepping -/

theorem takeOffer_ok {w : CodeWord} {i : Instr} (h : decode w = .ok i) (s : State) (rest : Offers)
    (k : Instr → State → Host.Outcome State Fault Refusal) :
    s.takeOffer w rest k = k i { s with offers := rest } := by
  simp [State.takeOffer, h]

theorem takeOffer_error {w : CodeWord} {r : Reject} (h : decode w = .error r) (s : State) (rest : Offers)
    (k : Instr → State → Host.Outcome State Fault Refusal) :
    s.takeOffer w rest k = .next (State.refuse { s with offers := rest } r) := by
  simp [State.takeOffer, h]

/-- Everything a step that answers a next state can have done, whatever is done with a decoded request. -/
theorem stepWith_next_cases {s t : State} {k : Instr → State → Host.Outcome State Fault Refusal}
    (h : s.stepWith k = .next t) :
    (s.resetReq = true ∧ t = s.blockReset) ∨
    (s.resetReq = false ∧ ∃ r j ops, s.seq = .busy r j ops ∧ t = s.advance r j ops) ∨
    (s.resetReq = false ∧ s.seq = .idle ∧ s.offers.pop = none ∧ t = s) ∨
    (s.resetReq = false ∧ s.seq = .idle ∧ ∃ w rest, s.offers.pop = some (w, rest) ∧
      ((∃ r, decode w = .error r ∧ t = State.refuse { s with offers := rest } r) ∨
       (∃ i, decode w = .ok i ∧ k i { s with offers := rest } = .next t))) := by
  unfold State.stepWith at h
  split at h
  · next hr => injection h with h; exact .inl ⟨hr, h.symm⟩
  · next hr =>
    have hr' : s.resetReq = false := by simpa using hr
    refine .inr ?_
    split at h
    · cases h
    · next r j ops hs => injection h with h; exact .inl ⟨hr', r, j, ops, hs, h.symm⟩
    · next hs =>
      refine .inr ?_
      split at h
      · next ho => injection h with h; exact .inl ⟨hr', hs, ho, h.symm⟩
      · next w rest ho =>
        refine .inr ⟨hr', hs, w, rest, ho, ?_⟩
        cases hd : decode w with
        | error r =>
          rw [takeOffer_error hd] at h; injection h with h
          exact .inl ⟨r, rfl, h.symm⟩
        | ok i => rw [takeOffer_ok hd] at h; exact .inr ⟨i, rfl, h⟩

/-- What a step of a faulted, a busy or a waiting block answers. -/
theorem stepWith_faulted {s : State} {e : Fault} (hr : s.resetReq = false) (hs : s.seq = .faulted e)
    (k : Instr → State → Host.Outcome State Fault Refusal) : s.stepWith k = .fault e := by
  simp [State.stepWith, hr, hs]

theorem stepWith_busy {s : State} {r : Instr} {j : Nat} {ops : List MicroOp} (hr : s.resetReq = false)
    (hs : s.seq = .busy r j ops) (k : Instr → State → Host.Outcome State Fault Refusal) :
    s.stepWith k = .next (s.advance r j ops) := by
  simp [State.stepWith, hr, hs]

theorem stepWith_offer {s : State} {w : CodeWord} {rest : Offers} (hr : s.resetReq = false)
    (hs : s.seq = .idle) (ho : s.offers.pop = some (w, rest)) (k : Instr → State → Host.Outcome State Fault Refusal) :
    s.stepWith k = s.takeOffer w rest k := by
  simp [State.stepWith, hr, hs, ho]

/-- The request of a word taken belongs to the interface that is modelled: a host sends no raw byte (R93). -/
theorem decode_pop_isPe {o rest : Offers} {c : CodeWord} {i : Instr} (h : o.pop = some (c, rest))
    (hd : decode c = .ok i) : i.isPe = o.isPe := by
  rcases o with (_ | ⟨w, ws⟩) | (_ | ⟨w, ws⟩)
  · cases h
  · cases h; exact decodeHost_isPe hd
  · cases h
  · cases h; exact decodePe_isPe hd

/-! ### A busy sequencer -/

theorem advance_some {s : State} {r : Instr} {k : Nat} {ops : List MicroOp} {m : MicroOp} (h : ops[k]? = some m) :
    s.advance r k ops =
      { m.run s with seq := if k + 1 < ops.length then .busy r (k + 1) ops else .idle } := by
  simp [State.advance, h]

theorem advance_none {s : State} {r : Instr} {k : Nat} {ops : List MicroOp} (h : ops[k]? = none) :
    s.advance r k ops = { s with seq := .idle } := by
  simp [State.advance, h]

end Sys2Proof.Machine
end

