-- ==== Sys2Proof/Laws/Units.lean ====
section
/-! SUPPORT. The two units (41 R155): lists of micro-operations and pseudocode steps joined, and what a list of them does to
the PE, to the CT and to the trace. -/

namespace Sys2Proof.Machine

/-! ### The CT's side -/

theorem after_append (p : Params) (c : Ct) (xs ys : List CtStep) :
    c.after p (xs ++ ys) = (c.after p xs).after p ys := by
  induction xs generalizing c with
  | nil => rfl
  | cons x rest ih => cases x <;> simp [Ct.after, ih]

theorem txnsOf_append (xs ys : List CtStep) : txnsOf (xs ++ ys) = txnsOf xs ++ txnsOf ys := by
  induction xs with
  | nil => rfl
  | cons x rest ih => cases x <;> simp [txnsOf, ih]

/-- Pseudocode in sequence, seen by the CT's registers. -/
theorem andThen_after (p : Params) (a b : Script) (c : Ct) :
    c.after p (Script.andThen p a b c) = (c.after p (a c)).after p (b (c.after p (a c))) := by
  simp [Script.andThen, after_append]

/-- Pseudocode in sequence, seen by the PE. -/
theorem andThen_txns (p : Params) (a b : Script) (c : Ct) :
    txnsOf (Script.andThen p a b c) = txnsOf (a c) ++ txnsOf (b (c.after p (a c))) := by
  simp [Script.andThen, txnsOf_append]

/-! ### The PE's side -/

theorem peOps_append (p : Params) (xs ys : List PeOp) (q : Pe) :
    peOps p (xs ++ ys) q =
      ((peOps p ys (peOps p xs q).1).1, (peOps p xs q).2 ++ (peOps p ys (peOps p xs q).1).2) := by
  induction xs generalizing q with
  | nil => rfl
  | cons x rest ih => simp [peOps, ih]

theorem peTxns_append (p : Params) (xs ys : List Txn) (q : Pe) :
    peTxns p (xs ++ ys) q =
      ((peTxns p ys (peTxns p xs q).1).1, (peTxns p xs q).2 ++ (peTxns p ys (peTxns p xs q).1).2) := by
  induction xs generalizing q with
  | nil => rfl
  | cons x rest ih => simp [peTxns, ih]

/-- Only `PE.SELECT` checks a handle (R110). -/
theorem faultOf_toInstr (p : Params) (t : Txn) (h : ∀ k, t ≠ .select k) : faultOf p t.toInstr = none := by
  cases t with
  | select k => exact absurd rfl (h k)
  | _ => rfl

/-- A transaction that does not fault is its micro-operations, from the `ACTIVE` it finds. -/
theorem peTxn_none {p : Params} {t : Txn} (h : faultOf p t.toInstr = none) (q : Pe) :
    peTxn p t q = peOps p (txnOps p q.active t) q := by
  simp [peTxn, h]

/-- A transaction that faults does nothing. -/
theorem peTxn_some {p : Params} {t : Txn} {f : Fault} (h : faultOf p t.toInstr = some f) (q : Pe) :
    peTxn p t q = (q, []) := by
  simp [peTxn, h]

/-- Each transaction is its micro-sequence (R111 to R113). -/
@[simp] theorem peTxn_cmd (p : Params) (b : Byte) (q : Pe) : peTxn p (.cmd b) q = peOps p (sendCmd p b) q := rfl

@[simp] theorem peTxn_data (p : Params) (b : Byte) (q : Pe) : peTxn p (.data b) q = peOps p (sendByte p b) q := rfl

@[simp] theorem peTxn_portInit (p : Params) (q : Pe) : peTxn p .portInit q = peOps p [.dirCfg q.active, .zero] q := rfl

/-- `PE.SELECT` checks its handle first (R114). -/
@[simp] theorem peTxn_select (p : Params) (h : Byte) (q : Pe) :
    peTxn p (.select h) q =
      if p.isHandle (handleOf p h) = true then peOps p [.setAct (handleOf p h), .dirCfg (handleOf p h)] q else (q, []) := by
  cases h1 : p.isHandle (handleOf p h) <;> simp [peTxn, Txn.toInstr, faultOf, selectFault, h1, txnOps]

/-- The PE's micro-operations leave the CT alone and append their events. -/
theorem runMicro_map_pe (ops : List PeOp) (s : State) :
    s.runMicro (ops.map .pe) =
      { s with pe := (peOps s.par ops s.pe).1, trace := s.trace ++ (peOps s.par ops s.pe).2 } := by
  induction ops generalizing s with
  | nil => simp [peOps]
  | cons op rest ih =>
    simp only [List.map_cons, runMicro_cons, ih, peOps]
    simp [MicroOp.run]

/-- The CT's updates leave the PE and the trace alone. -/
theorem runMicro_ct (op : CtOp) (s : State) : s.runMicro [.ct op] = { s with ct := op.run s.par s.ct } := rfl

/-! ### Pseudocode without `PE.SELECT` -/

/-- No step of the list is a `PE.SELECT`, so `ACTIVE` stays what it was when the request was accepted. -/
def noSelect : List CtStep → Bool
  | [] => true
  | .txn (.select _) :: _ => false
  | .txn (.cmd _) :: rest => noSelect rest
  | .txn (.data _) :: rest => noSelect rest
  | .txn .portInit :: rest => noSelect rest
  | .upd _ :: rest => noSelect rest

/-- No micro-operation of the list is `SETACT`. -/
def noSetAct : List PeOp → Bool
  | [] => true
  | .setAct _ :: _ => false
  | _ :: rest => noSetAct rest

theorem noSelect_append (xs ys : List CtStep) : noSelect (xs ++ ys) = (noSelect xs && noSelect ys) := by
  induction xs with
  | nil => rfl
  | cons x rest ih =>
    cases x with
    | txn t => cases t <;> simp [noSelect, ih]
    | upd op => simp [noSelect, ih]

/-- Micro-operations other than `SETACT` keep `ACTIVE`. -/
theorem peOps_active (p : Params) (ops : List PeOp) (q : Pe) (h : noSetAct ops = true) :
    (peOps p ops q).1.active = q.active := by
  induction ops generalizing q with
  | nil => rfl
  | cons op rest ih =>
    have hr : noSetAct rest = true := by cases op <;> simp_all [noSetAct]
    have ha : (op.run p q).1.active = q.active := by cases op <;> simp_all [noSetAct, PeOp.run]
    simp [peOps, ih _ hr, ha]

theorem noSetAct_txnOps (p : Params) (t : Txn) (a : Nat) (h : ∀ k, t ≠ .select k) :
    noSetAct (txnOps p a t) = true := by
  cases t <;> simp_all [txnOps, sendCmd, sendByte, nib, noSetAct]

/-- What pseudocode without `PE.SELECT` does to the state: the PE serves its transactions, the CT its updates (R155). -/
theorem runMicro_steps (steps : List CtStep) (s : State) (h : noSelect steps = true) :
    s.runMicro (steps.flatMap (CtStep.micro s.par s.pe.active)) =
      { s with
        pe := (peTxns s.par (txnsOf steps) s.pe).1
        ct := s.ct.after s.par steps
        trace := s.trace ++ (peTxns s.par (txnsOf steps) s.pe).2 } := by
  induction steps generalizing s with
  | nil => simp [txnsOf, peTxns, Ct.after]
  | cons x rest ih =>
    cases x with
    | upd op =>
      simp only [List.flatMap_cons, CtStep.micro, List.singleton_append, runMicro_cons]
      have hi := ih ((MicroOp.ct op).run s) (by simpa [noSelect] using h)
      rw [run_ct_pe, run_par] at hi
      rw [hi]
      simp [txnsOf, Ct.after, MicroOp.run]
    | txn t =>
      have ht : ∀ k, t ≠ .select k := by rintro k rfl; simp [noSelect] at h
      have hr : noSelect rest = true := by cases t <;> simp_all [noSelect]
      simp only [List.flatMap_cons, CtStep.micro, runMicro_append, runMicro_map_pe]
      have hi := ih { s with
        pe := (peOps s.par (txnOps s.par s.pe.active t) s.pe).1
        trace := s.trace ++ (peOps s.par (txnOps s.par s.pe.active t) s.pe).2 } hr
      simp only [peOps_active _ _ _ (noSetAct_txnOps _ t _ ht)] at hi
      rw [hi]
      simp [txnsOf, peTxns, peTxn_none (faultOf_toInstr _ t ht), Ct.after]

theorem noSelect_move (p : Params) (r c : Byte) (ct : Ct) : noSelect (moveScript p r c ct) = true := by
  simp only [moveScript]; split <;> simp [noSelect]

theorem noSelect_putc (p : Params) (ch : Byte) (ct : Ct) : noSelect (putcScript p ch ct) = true := by
  simp only [putcScript, noSelect_append]; split <;> simp [noSelect, noSelect_move]

theorem noSelect_andThen {p : Params} {a b : Script} (ha : ∀ c, noSelect (a c) = true) (hb : ∀ c, noSelect (b c) = true)
    (c : Ct) : noSelect (Script.andThen p a b c) = true := by
  simp [Script.andThen, noSelect_append, ha, hb]

theorem noSelect_spaces (p : Params) (k : Nat) (ct : Ct) : noSelect (spacesScript p k ct) = true := by
  induction k generalizing ct with
  | zero => rfl
  | succ k ih => exact noSelect_andThen (noSelect_putc p p.charSpace) ih ct

theorem noSelect_cascade (p : Params) (x : Byte) (ct : Ct) : noSelect (cascadeScript p x ct) = true := by
  unfold cascadeScript
  split
  · exact noSelect_andThen (noSelect_move p _ _) (noSelect_spaces p _) ct
  · rfl

/-- Only `SETCFG` and `PE.SELECT` issue a `PE.SELECT` (R156). -/
theorem noSelect_scriptOf (p : Params) (i : Instr) (c : Ct) (h : writesActive i = false) :
    noSelect (scriptOf p i c) = true := by
  cases i <;> simp_all [writesActive, scriptOf]
  all_goals first
    | rfl
    | exact noSelect_move ..
    | exact noSelect_putc ..
    | exact noSelect_spaces ..
    | exact noSelect_andThen (noSelect_putc _ _) (noSelect_putc _ _) _
    | exact noSelect_andThen (fun _ => rfl) (noSelect_andThen (noSelect_move _ _ _)
        (noSelect_andThen (noSelect_spaces _ _)
          (noSelect_andThen (noSelect_cascade _ _) (fun _ => noSelect_move ..)))) _

/-! ### The CT's pseudocode, one lemma each -/

/-- At the widths R7 gives, the requests with operands run their pseudocode on their operands whole. -/
theorem scriptOf_specWidths {p : Params} (h : p.specWidths = true) :
    (∀ r c, scriptOf p (.move r c) = moveScript p r c) ∧ (∀ ch, scriptOf p (.putc ch) = putcScript p ch) ∧
    (∀ n, scriptOf p (.number n) = numberScript p n) ∧ (∀ c, scriptOf p (.clrline c) = clrlineScript p c) ∧
    (∀ x y, scriptOf p (.clrfrom x y) = clrfromScript p x y) := by
  simp only [scriptOf, specWidths_operand h, implies_true, and_self]

theorem after_move (p : Params) (r c : Byte) (ct : Ct) :
    ct.after p (moveScript p r c ct) = { ct with col := p.colVal c, misuse := ct.misuse || !inRange p r c } := by
  simp only [moveScript, after_append]
  cases h : inRange p r c <;> simp [Ct.after, CtOp.run, Ct.markMisuse]

theorem txnsOf_move (p : Params) (r c : Byte) (ct : Ct) : txnsOf (moveScript p r c ct) = [addrTxn p r c] := by
  simp only [moveScript, txnsOf_append]; split <;> simp [txnsOf, addrTxn]

/-- A `PUTC` marks misuse only where the wrap's own move is out of range, as on a display of one row. -/
theorem after_putc (p : Params) (ch : Byte) (ct : Ct) :
    ct.after p (putcScript p ch ct) =
      { ct with
        col := colAfterPutc p ct.col
        misuse := ct.misuse || (decide (ct.col = p.wrapCol) && !inRange p 1#8 0#8) } := by
  by_cases h : ct.col = p.wrapCol
  · simp [putcScript, after_append, after_move, Ct.after, CtOp.run, h, colAfterPutc]
  · simp [putcScript, Ct.after, CtOp.run, h, colAfterPutc]

theorem txnsOf_putc (p : Params) (ch : Byte) (ct : Ct) : txnsOf (putcScript p ch ct) = putTxns p ct.col ch := by
  by_cases h : ct.col = p.wrapCol <;> simp [putcScript, txnsOf_append, putTxns, h, txnsOf, txnsOf_move]

theorem after_spaces_col (p : Params) (k : Nat) (ct : Ct) :
    (ct.after p (spacesScript p k ct)).col = colAfterPutcs p k ct.col := by
  induction k generalizing ct with
  | zero => rfl
  | succ k ih => simp [spacesScript, andThen_after, after_putc, ih, colAfterPutcs]

theorem after_spaces_saved (p : Params) (k : Nat) (ct : Ct) : (ct.after p (spacesScript p k ct)).saved = ct.saved := by
  induction k generalizing ct with
  | zero => rfl
  | succ k ih => simp [spacesScript, andThen_after, after_putc, ih]

/-- Spaces mark no misuse where the wrap's own move is in range. -/
theorem after_spaces_misuse (p : Params) (hw : inRange p 1#8 0#8 = true) (k : Nat) (ct : Ct) :
    (ct.after p (spacesScript p k ct)).misuse = ct.misuse := by
  induction k generalizing ct with
  | zero => rfl
  | succ k ih => simp [spacesScript, andThen_after, after_putc, ih, hw]

theorem txnsOf_spaces (p : Params) (k : Nat) (ct : Ct) : txnsOf (spacesScript p k ct) = spacesTxns p k ct.col := by
  induction k generalizing ct with
  | zero => rfl
  | succ k ih => simp [spacesScript, andThen_txns, txnsOf_putc, ih, after_putc, spacesTxns]

/-- No wrap falls among spaces that end at the wrap column or before it (R152). -/
theorem spaces_plain (p : Params) (hp : p.specWidths = true) (k : Nat) (c : Byte) (h : c.toNat + k ≤ p.wrapCol.toNat) :
    spacesTxns p k c = List.replicate k (.data p.charSpace) ∧ (colAfterPutcs p k c).toNat = c.toNat + k := by
  induction k generalizing c with
  | zero => simp [spacesTxns, colAfterPutcs]
  | succ k ih =>
    have hw := p.wrapCol.isLt
    have hc : c ≠ p.wrapCol := by rintro rfl; omega
    have h1 : (c + 1#8).toNat = c.toNat + 1 := by simp; omega
    have hi := ih (c + 1#8) (by omega)
    simp [spacesTxns, colAfterPutcs, putTxns, colAfterPutc, specWidths_colVal hp, hc, hi, List.replicate_succ, h1]
    omega

/-! ### The PE's micro-sequences, one lemma each, for R7's layout -/

theorem nib_run {p : Params} (hl : p.specLayout = true) (v : Byte) (q : Pe) (hv : v &&& 0x0F#8 = 0#8) :
    peOps p (nib v) q =
      ({ q with ports := portWrite q.ports (dataKey q.active) (v ||| (q.d &&& 0x0E#8)) },
        [ .wrData q.active (q.d ||| 0x01#8), .wrData q.active (v ||| (q.d &&& 0x0E#8) ||| 0x01#8),
          .wrData q.active (v ||| (q.d &&& 0x0E#8)) ]) := by
  obtain ⟨hn, _, he, _⟩ := specLayout_masks hl
  simp only [nib, peOps, PeOp.run, specLayout_portVal hl, Pe.writeData, Pe.d, Pe.data, portRead_portWrite_self,
    portWrite_portWrite_self, hn, he]
  generalize portRead q.ports (dataKey q.active) = d
  have e1 : v ||| ((d ||| 0x01#8) &&& ~~~0xF0#8) = v ||| (d &&& 0x0E#8) ||| 0x01#8 := by
    have h : ∀ d : Byte, (d ||| 0x01#8) &&& ~~~0xF0#8 = (d &&& 0x0E#8) ||| 0x01#8 := by decide
    rw [h, BitVec.or_assoc]
  have e2 : (v ||| ((d ||| 0x01#8) &&& ~~~0xF0#8)) &&& ~~~0x01#8 = v ||| (d &&& 0x0E#8) := by
    have h1 : ∀ d : Byte, ((d ||| 0x01#8) &&& ~~~0xF0#8) &&& ~~~0x01#8 = d &&& 0x0E#8 := by decide
    have h2 : ∀ v : Byte, v &&& 0x0F#8 = 0#8 → v &&& ~~~0x01#8 = v := by decide
    rw [BitVec.and_or_distrib_right, h1, h2 v hv]
  rw [e2, e1]
  rfl

theorem hiInPlace_low {p : Params} (hl : p.specLayout = true) (b : Byte) :
    hiInPlace p b = hiOf b ∧ hiInPlace p b &&& 0x0F#8 = 0#8 := by
  rw [(specLayout_inPlace hl b).1]
  revert b; decide

theorem loInPlace_low {p : Params} (hl : p.specLayout = true) (b : Byte) :
    loInPlace p b = loOf b ∧ loInPlace p b &&& 0x0F#8 = 0#8 := by
  rw [(specLayout_inPlace hl b).2]
  revert b; decide

theorem keep_low (v d : Byte) (hv : v &&& 0x0F#8 = 0#8) : (v ||| (d &&& 0x0E#8)) &&& 0x0E#8 = d &&& 0x0E#8 := by
  have h1 : ∀ v : Byte, v &&& 0x0F#8 = 0#8 → v &&& 0x0E#8 = 0#8 := by decide
  have h2 : ∀ d : Byte, (d &&& 0x0E#8) &&& 0x0E#8 = d &&& 0x0E#8 := by decide
  rw [BitVec.and_or_distrib_right, h1 v hv, h2]
  simp

theorem sendByte_run {p : Params} (hl : p.specLayout = true) (b : Byte) (q : Pe) :
    peOps p (sendByte p b) q =
      ({ q with ports := portWrite q.ports (dataKey q.active) (dataFinal q.d b) }, dataEvents q.active q.d b) := by
  obtain ⟨e1, z1⟩ := hiInPlace_low hl b
  obtain ⟨e2, z2⟩ := loInPlace_low hl b
  simp only [sendByte, peOps_append, nib_run hl _ _ z1, nib_run hl _ _ z2]
  simp only [peOps, PeOp.run, Pe.d, Pe.data, portRead_portWrite_self, portWrite_portWrite_self, e1, e2]
  rw [e1] at z1
  rw [keep_low _ _ z1]
  simp [dataFinal, dataEvents]

theorem sendCmd_run {p : Params} (hl : p.specLayout = true) (b : Byte) (q : Pe) :
    peOps p (sendCmd p b) q =
      ({ q with ports := portWrite q.ports (dataKey q.active) (cmdFinal q.d b) }, cmdEvents q.active q.d b) := by
  obtain ⟨_, hr, _⟩ := specLayout_masks hl
  simp only [sendCmd, peOps_append, sendByte_run hl]
  simp only [peOps, PeOp.run, specLayout_portVal hl, Pe.writeData, Pe.d, Pe.data, portRead_portWrite_self,
    portWrite_portWrite_self, List.append_nil, hr]
  generalize portRead q.ports (dataKey q.active) = d
  have h1 : ∀ d : Byte, d &&& ~~~0x02#8 = d &&& 0xFD#8 := by decide
  have h2 : ∀ d : Byte, (d &&& 0xFD#8) &&& 0x0E#8 = d &&& 0x0C#8 := by decide
  simp only [dataFinal, dataEvents, h1, h2, cmdFinal, cmdEvents]
  rfl

end Sys2Proof.Machine
end

