-- ==== Sys2Proof/Tests/Slice0.lean ====
section
/-! SUPPORT. The model's own tests. Expected results are the spec's: the encodings of 30_encoding R85 and R91, and the vectors
of 95_test_vectors, whose numbers stand at each test. After them, for each obligation with hypotheses, a concrete state and
operands that meet them. -/

namespace Sys2Proof.Tests

open Sys2Proof Sys2Proof.Machine

/-! ### States of the vectors (95 Conventions): two ports, prefix 0x00, port 0 active -/

/-- Two ports, handles 0 and 1, at 16 MHz, with an LCD that needs 40 ms after power-up, the other arguments at the spec's values. -/
def twoPorts : Params := specParams 1 0 16000000 40000000

/-- An idle block: port 0 at `d0` and `dir0`, port 1 at 0x5D and 0x0C. -/
def block (d0 dir0 col : Byte) : State :=
  { par := twoPorts
    pe := { active := 0, ports := [(0, d0), (1, dir0), (2, 0x5D#8), (3, 0x0C#8)] }
    ct := { col := col, saved := 0#8, misuse := false }
    seq := .idle
    refusals := []
    trace := []
    offers := .host []
    resetReq := false
    resets := 0 }

/-- The state `INIT` leaves, with `COL` as given. -/
def ready (col : Byte) : State := block 0x12#8 0xF3#8 col

/-- The same with other prefix. -/
def readyPrefix (pre col : Byte) : State := { ready col with par := { twoPorts with addrCmdPrefix := pre } }

/-- What a request puts on the active port's bus, and `COL` after it. -/
def busAndCol (i : Instr) (s : State) : Option (List BusByte × Byte) :=
  match exec i s with
  | .next t => some (busBytes s.par s.pe.active s.pe.d (t.trace.drop s.trace.length), t.ct.col)
  | .fault _ => none
  | .refused _ => none

/-- The state after a request. -/
def after (i : Instr) (s : State) : Option State :=
  match exec i s with
  | .next t => some t
  | .fault _ => none
  | .refused _ => none

/-! ### Well-formedness: an ill-formed term for each check is refused (R87, R88) -/

theorem test_operand_missing : (SourceLine.req .move [1]).wellFormed = false := by decide
theorem test_operand_extra : (SourceLine.req .clear [0]).wellFormed = false := by decide
theorem test_literal_256 : (SourceLine.req .putc [256]).wellFormed = false := by decide
theorem test_literal_255 : (SourceLine.req .putc [255]).wellFormed = true := by decide
theorem test_write_value_256 : (SourceLine.write [65, 256]).wellFormed = false := by decide
theorem test_ill_formed_not_assembled : assemble (.req .putc [256]) = none := by decide

/-! ### Assembler text (R87, R88) -/

theorem test_line_move : assembleLine "MOVE 1, 0x05 ; to the second row" = some [.move 1#8 5#8] := by decide
theorem test_line_character : assembleLine "PUTC 'A'" = some [.putc 0x41#8] := by decide
theorem test_line_write : assembleLine "WRITE [0x61, 98]" = some [.putc 0x61#8, .putc 0x62#8] := by decide
theorem test_line_write_empty : assembleLine "WRITE \"\"" = some [] := by decide
theorem test_line_order : assembleLine "CLRFROM 0, 4" = some [.clrfrom 0#8 4#8] := by decide
theorem test_line_character_beyond_255 : assembleLine "PUTC 'λ'" = none := by decide
theorem test_line_literal_too_large : assembleLine "NUMBER 256" = none := by decide

/-! ### Decoding, each word written out field by field from R80, R81, R90, R91 -/

theorem test_decode_init : decodeHost 0b000000010000000000000000#24 = .ok (.init) := by decide
theorem test_decode_setcfg : decodeHost 0b000000100000000100000000#24 = .ok (.setcfg 1#8) := by decide
theorem test_decode_move : decodeHost 0b000000110000000100000101#24 = .ok (.move 1#8 5#8) := by decide
theorem test_decode_putc : decodeHost 0b000001000100000100000000#24 = .ok (.putc 0x41#8) := by decide
theorem test_decode_clear : decodeHost 0b000001010000000000000000#24 = .ok (.clear) := by decide
theorem test_decode_home : decodeHost 0b000001100000000000000000#24 = .ok (.home) := by decide
theorem test_decode_number : decodeHost 0b000001110000011100000000#24 = .ok (.number 7#8) := by decide
theorem test_decode_clrline : decodeHost 0b000010000000001100000000#24 = .ok (.clrline 3#8) := by decide
theorem test_decode_clrfrom : decodeHost 0b000010010000000000000100#24 = .ok (.clrfrom 0#8 4#8) := by decide
theorem test_decode_pe_cmd : decodePe 0b000000101000#12 = .ok (.peCmd 0x28#8) := by decide
theorem test_decode_pe_data : decodePe 0b000100101000#12 = .ok (.peData 0x28#8) := by decide
theorem test_decode_pe_portinit : decodePe 0b001000000000#12 = .ok (.pePortinit) := by decide
theorem test_decode_pe_select : decodePe 0b001100000001#12 = .ok (.peSelect 1#8) := by decide

theorem test_reserved_opc_zero : decodeHost 0x000000#24 = .error (.reservedRequest 0x000000#24) := by decide
theorem test_reserved_opc_0A : decodeHost 0x0A0000#24 = .error (.reservedRequest 0x0A0000#24) := by decide
theorem test_reserved_init_field : decodeHost 0x010001#24 = .error (.reservedRequest 0x010001#24) := by decide
theorem test_reserved_putc_field : decodeHost 0x044141#24 = .error (.reservedRequest 0x044141#24) := by decide
theorem test_not_reserved_move : decodeHost 0x0302FF#24 = .ok (.move 2#8 255#8) := by decide
theorem test_reserved_kind_4 : decodePe 0x400#12 = .error (.reservedPE 0x400#12) := by decide
theorem test_reserved_portinit_field : decodePe 0x201#12 = .error (.reservedPE 0x201#12) := by decide

/-- R84: no two rows of the opcode table match the same word. -/
theorem test_rows_disjoint : opcodeTable.Pairwise (fun r q => r.disjointFrom q = true) := by decide

/-! ### Vectors of 95_test_vectors -/

/-- L2.1.4: bits 3:2 are kept. -/
theorem test_pe_cmd_events : (after (.peCmd 0xFF#8) (block 0x0E#8 0xF3#8 0#8)).map (·.trace) = some
    [ .wrData 0 0x0C#8, .wrData 0 0x0D#8, .wrData 0 0xFD#8, .wrData 0 0xFC#8, .wait .gap,
      .wrData 0 0xFD#8, .wrData 0 0xFD#8, .wrData 0 0xFC#8, .wait .byte, .wrData 0 0xFE#8, .wait .cmd ] := by decide
/-- L2.1.5: E = 1 and RS = 0 on entry. -/
theorem test_pe_cmd_bus : busAndCol (.peCmd 0x01#8) (block 0x01#8 0xF3#8 0#8) = some ([busC 0x01#8], 0#8) := by decide
/-- L2.2.1. -/
theorem test_pe_data_events : (after (.peData 0x41#8) (block 0x82#8 0xF3#8 0#8)).map (·.trace) = some
    [ .wrData 0 0x83#8, .wrData 0 0x43#8, .wrData 0 0x42#8, .wait .gap,
      .wrData 0 0x43#8, .wrData 0 0x13#8, .wrData 0 0x12#8, .wait .byte ] := by decide
/-- L2.2.3: the RS hazard. -/
theorem test_pe_data_rs_low : busAndCol (.peData 0x41#8) (block 0x00#8 0xF3#8 0#8) = some ([busC 0x41#8], 0#8) := by decide
/-- L2.3.2. -/
theorem test_pe_portinit_events :
    (after .pePortinit (block 0x5D#8 0x0C#8 0#8)).map (·.trace) = some [.wrDir 0 0xFF#8, .wrData 0 0x00#8] := by decide
/-- L2.3.2: the spurious latch. -/
theorem test_pe_portinit_latch : latches twoPorts 0 0x5D#8 [.wrDir 0 0xFF#8, .wrData 0 0x00#8] = [⟨false, 0x0#4⟩] := by decide
/-- L2.3.3. -/
theorem test_pe_select : (after (.peSelect 1#8) (ready 0#8)).map (fun t => (t.pe.active, t.pe.dir 1, t.pe.data 1, t.trace)) =
    some (1, 0xFF#8, 0x5D#8, [.wrDir 1 0xFF#8]) := by decide
/-- L2.3.5. -/
theorem test_pe_select_invalid : (after (.peSelect 2#8) (ready 0#8)).map (fun t => (t.seq, t.pe, t.trace)) =
    some (.faulted (.invalidHandle 2), (ready 0#8).pe, []) := by decide
/-- L2.5.1: the bus bytes and `COL`. -/
theorem test_init_bus : busAndCol .init (block 0x00#8 0x00#8 7#8) =
    some ([busC 0x02#8, busC 0x28#8, busC 0x06#8, busC 0x0C#8, busC 0x01#8], 0#8) := by decide
/-- L2.5.1: the port's registers. -/
theorem test_init_port : (after .init (block 0x00#8 0x00#8 7#8)).map (fun t => (t.pe.dir 0, t.pe.data 0)) =
    some (0xF3#8, 0x12#8) := by decide
/-- L2.5.3. -/
theorem test_setcfg : (after (.setcfg 1#8) (ready 9#8)).map (fun t => (t.pe.active, t.pe.dir 1, t.ct.col, t.trace)) =
    some (1, 0xFF#8, 9#8, [.wrDir 1 0xFF#8]) := by decide
/-- L2.5.4. -/
theorem test_setcfg_invalid : (after (.setcfg 2#8) (ready 9#8)).map (·.seq) = some (.faulted (.invalidHandle 2)) := by decide
/-- L2.6.5, with the prefix 0x80. -/
theorem test_move_prefix : busAndCol (.move 1#8 5#8) (readyPrefix 0x80#8 3#8) = some ([busC 0xC5#8], 5#8) := by decide
/-- L2.6.9: the column overlaps the row bits, and misuse is marked. -/
theorem test_move_misuse : (after (.move 0#8 0x50#8) (ready 0#8)).map (fun t => (t.ct.col, t.ct.misuse, t.pe.data 0)) =
    some (80#8, true, 0x02#8) := by decide
/-- L2.7.3. -/
theorem test_putc_wraps : busAndCol (.putc 0x63#8) (ready 16#8) = some ([busC 0x40#8, busD 0x63#8], 1#8) := by decide
/-- L2.7.4. -/
theorem test_putc_255 : busAndCol (.putc 0x41#8) (ready 255#8) = some ([busD 0x41#8], 0#8) := by decide
/-- L2.7.12. -/
theorem test_write_wrap : (match execWrite [0x61#8, 0x61#8] (ready 15#8) with
    | .next t => some (busBytes twoPorts 0 0x12#8 t.trace, t.ct.col)
    | .fault _ => none
    | .refused _ => none) = some ([busD 0x61#8, busC 0x40#8, busD 0x61#8], 1#8) := by decide
/-- L2.7.19. -/
theorem test_wrap_count : wrapCount twoPorts 250#8 30 = 1 ∧ wrapsBefore twoPorts 250#8 22 = true := by decide
/-- L2.8.1. -/
theorem test_clear : busAndCol .clear (ready 9#8) = some ([busC 0x01#8], 9#8) := by decide
/-- L2.8.2. -/
theorem test_home : busAndCol .home (ready 16#8) = some ([busC 0x02#8], 16#8) := by decide
/-- L2.9.5. -/
theorem test_number_19 : busAndCol (.number 19#8) (ready 0#8) = some ([busD 0x31#8, busD 0x39#8], 2#8) := by decide
/-- L2.9.8: a wrap between the digit and its pad. -/
theorem test_number_wrap : busAndCol (.number 5#8) (ready 15#8) =
    some ([busD 0x35#8, busC 0x40#8, busD 0x20#8], 1#8) := by decide
/-- L2.10.5: `COL` ahead of the operand. -/
theorem test_clrline_ahead : ctTxns twoPorts (.clrline 10#8) (ready 12#8).ct =
    [.data 0x20#8, .data 0x20#8, .data 0x20#8, .data 0x20#8, .cmd 0x40#8, .data 0x20#8, .data 0x20#8] := by decide
/-- L2.10.4. -/
theorem test_clrline_none : after (.clrline 20#8) (ready 3#8) = some (ready 3#8) := by decide
/-- L2.11.6: the bus bytes. -/
theorem test_clrfrom_bus : busAndCol (.clrfrom 1#8 15#8) (ready 16#8) =
    some ([busC 0x4F#8, busD 0x20#8, busC 0x50#8], 16#8) := by decide
/-- L2.11.1: the transactions of the cascade. -/
theorem test_clrfrom_cascade : ctServe twoPorts (.clrfrom 0#8 14#8) (ready 5#8).ct =
    ([.cmd 0x0E#8, .data 0x20#8, .data 0x20#8, .cmd 0x40#8] ++ List.replicate 16 (.data 0x20#8) ++ [.cmd 0x05#8],
      { col := 5#8, saved := 5#8, misuse := false }) := by decide
/-- L2.4.10: a reserved word sets the mark, and its cause is 3. -/
theorem test_reserved_marks : (match step { ready 3#8 with offers := .host [0x000000#24] } with
    | .next t => some (t.trace, t.ct.col, t.causes.map Cause.code)
    | .fault _ => none
    | .refused _ => none) = some ([], 3#8, [3]) := by decide
/-- R250: `CLEAR` takes at least C, with `T_GAP` 62.5 ns at 16 MHz. -/
theorem test_duration : (after .clear (ready 9#8)).map (fun t => minNs t.par t.trace) = some (5050000 + 125 / 2) := by decide +kernel
/-- R7, R25: `COL_WIDTH` is an argument: at 5 bits the column wraps modulo 32, at 8 modulo 256. -/
theorem test_col_width : (CtOp.incCol.run { twoPorts with colWidth := 5 } (ready 31#8).ct).col = 0#8 ∧
    (CtOp.incCol.run twoPorts (ready 31#8).ct).col = 32#8 := by decide
/-- R7, R24: `PORT_WIDTH` is an argument: a register of 6 bits keeps 0x33 of `DIR_MASK`. -/
theorem test_port_width : ((PeOp.dirCfg 0).run { twoPorts with portWidth := 6 } { active := 0, ports := [(0, 0#8), (1, 0x0C#8)] }).2 =
    [.wrDir 0 0x3F#8] := by decide
/-- R7: `OPERAND_WIDTH` is an argument: of 0x41, a request takes 4 bits. -/
theorem test_operand_width : ctTxns { twoPorts with operandWidth := 4 } (.putc 0x41#8) (ready 3#8).ct = [.data 0x01#8] := by decide
/-- R7: an ill-formed set of parameters for each check of the widths is refused (log 33). -/
theorem test_widths_refused : { twoPorts with portWidth := 9 }.wf = false ∧ { twoPorts with colWidth := 9 }.wf = false ∧
    { twoPorts with operandWidth := 9 }.wf = false ∧ { twoPorts with portWidth := 7 }.wf = false ∧ twoPorts.wf = true := by
  decide +kernel
/-- R24, R71: the layout is an argument: with RS in bit 2 and E in bit 3 instead, the same frame has other masks. -/
theorem test_other_layout : (peOps { twoPorts with rsBit := 2, eBit := 3 } (nib 0x40#8) { active := 0, ports := [(0, 0x04#8)] }).2 =
    [.wrData 0 0x0C#8, .wrData 0 0x4C#8, .wrData 0 0x44#8] := by decide
/-- R232: the host's power-up duty is met from `T_POWERON` on. -/
theorem test_powered_up : twoPorts.poweredUp 39999999 = false ∧ twoPorts.poweredUp 40000000 = true := by decide +kernel

/-! ### Witnesses: for each obligation with hypotheses, data that meet them -/

/-- A block that is offered `MOVE 1, 5` and then a reserved word. -/
def offered : State := { ready 3#8 with offers := .host [0x030105#24, 0x000000#24] }

/-- A block that is offered a reserved word. -/
def offeredReserved : State := { ready 3#8 with offers := .peAlone [0x400#12] }

/-- A block that has accepted `CLEAR`. -/
def busyBlock : State := { ready 3#8 with seq := .busy .clear 0 ((ready 3#8).expand (scriptOf twoPorts .clear)) }

/-- The same block before its last micro-operation. -/
def lastStep : State := { ready 3#8 with seq := .busy .clear 10 ((ready 3#8).expand (scriptOf twoPorts .clear)) }

/-- A faulted block. -/
def faultedBlock : State := { ready 3#8 with seq := .faulted (.invalidHandle 2) }

/-- A faulted block with reset asserted. -/
def resetBlock : State := { faultedBlock with resetReq := true }

theorem witness_DecodedWordIsTheEncodedWord : decode (.host 0x03FFFF#24) = .ok (.move 255#8 255#8) ∧ decode (.pe 0x3FF#12) = .ok (.peSelect 255#8) := by decide
theorem witness_ReservedHostWordsAreRejected : decodeHost 0x0A0000#24 = .error (.reservedRequest 0x0A0000#24) ∧
    decodeHost 0x020101#24 = .error (.reservedRequest 0x020101#24) := by decide
theorem witness_ReservedPeWordsAreRejected : decodePe 0x400#12 = .error (.reservedPE 0x400#12) ∧ decodePe 0x2FF#12 = .error (.reservedPE 0x2FF#12) := by decide
theorem witness_StepServesTheDecodedRequest : offered.resetReq = false ∧ offered.seq = .idle ∧
    offered.offers.pop = some (.host 0x030105#24, .host [0x000000#24]) ∧ decode (.host 0x030105#24) = .ok (.move 1#8 5#8) := by decide
theorem witness_StepServesTheDecodedRequest_table : State.reset.resetReq = false ∧ State.reset.seq = .idle ∧
    decodeTableWord 24 0x030105 = some (.move 1#8 5#8) ∧ decodeTableWord 12 0x128 = some (.peData 0x28#8) := ⟨rfl, rfl, by decide, by decide⟩
theorem witness_ReservedWordIsRefused : offeredReserved.resetReq = false ∧ offeredReserved.seq = .idle ∧
    offeredReserved.offers.pop = some (.pe 0x400#12, .peAlone []) ∧ decode (.pe 0x400#12) = .error (.reservedPE 0x400#12) := by decide
theorem witness_IdleBlockWaits : State.reset.resetReq = false ∧ State.reset.seq = .idle ∧ State.reset.offers.pop = none := ⟨rfl, rfl, rfl⟩
theorem witness_BusyBlockLetsRequestsWait : busyBlock.resetReq = false ∧ ∃ ops, busyBlock.seq = .busy .clear 0 ops := ⟨rfl, _, rfl⟩
theorem witness_AcceptanceSetsBusy : offered.resetReq = false ∧ offered.seq = .idle ∧
    offered.offers.pop = some (.host 0x030105#24, .host [0x000000#24]) ∧ decode (.host 0x030105#24) = .ok (.move 1#8 5#8) ∧
    faultOf offered.par (.move 1#8 5#8) = none := by decide
theorem witness_BusyStepPerformsOneMicroOp : busyBlock.resetReq = false ∧ ∃ ops, busyBlock.seq = .busy .clear 0 ops ∧ ops[0]? = some (.pe .rsLo) := ⟨rfl, _, rfl, by decide⟩
theorem witness_BusyStepPerformsOneMicroOp_last : lastStep.resetReq = false ∧
    ∃ ops, lastStep.seq = .busy .clear 10 ops ∧ ops[10]? = some (.pe (.wait .cmd)) ∧ ¬ 10 + 1 < ops.length := ⟨rfl, _, rfl, by decide, by decide⟩
theorem witness_FaultedBlockIsStuck : faultedBlock.seq = .faulted (.invalidHandle 2) ∧ faultedBlock.resetReq = false := by decide
theorem witness_FaultedBlockIsStuck_reset : resetBlock.seq = .faulted (.invalidHandle 2) ∧ (∃ t, step resetBlock = .next t) ∧ ∃ t, microStep resetBlock = .next t := ⟨rfl, ⟨_, rfl⟩, ⟨_, rfl⟩⟩
theorem witness_BlockResetEffect : resetBlock.resetReq = true := by decide
theorem witness_TransactionEventCounts : twoPorts.isHandle (handleOf twoPorts 1#8) = true ∧ twoPorts.isHandle (handleOf twoPorts 2#8) = false ∧
    twoPorts.specWidths = true := by decide
theorem witness_NibbleFrameLatchesOnce : twoPorts.specLayout = true ∧
    (0xF0#8 : Byte) &&& 0x0F#8 = 0#8 := by decide
theorem witness_PeCmdResult : (ready 16#8).par.specLayout = true ∧
    (ready 16#8).seq = .idle := ⟨by decide, rfl⟩
theorem witness_PeDataResult : (ready 16#8).par.specLayout = true ∧
    (ready 16#8).seq = .idle := ⟨by decide, rfl⟩
theorem witness_PePortinitResult : (ready 16#8).seq = .idle := rfl
theorem witness_InitResult : (ready 16#8).par.specLayout = true ∧
    (ready 16#8).seq = .idle := ⟨by decide, rfl⟩
theorem witness_MoveResult : (ready 16#8).par.specLayout = true ∧ (ready 16#8).par.specGeometry = true ∧
    (ready 16#8).seq = .idle := ⟨by decide, by decide, rfl⟩
theorem witness_ClearAndHomeResult : (ready 16#8).par.specLayout = true ∧
    (ready 16#8).seq = .idle := ⟨by decide, rfl⟩
theorem witness_NumberIsTwoCharacters : (ready 16#8).par.specWidths = true ∧
    (ready 16#8).seq = .idle := ⟨by decide, rfl⟩
theorem witness_ClrfromIsItsRequests : (ready 16#8).par.specWidths = true ∧
    (ready 16#8).seq = .idle := ⟨by decide, rfl⟩
theorem witness_RequestIsPeAfterCt : (ready 16#8).seq = .idle := rfl
theorem witness_PutcResult : (ready 15#8).par.specLayout = true ∧ (ready 15#8).par.specGeometry = true ∧
    (ready 15#8).seq = .idle ∧ (ready 15#8).ct.col ≠ 16#8 := by decide
theorem witness_PutcResult_wrap : (ready 16#8).par.specLayout = true ∧ (ready 16#8).par.specGeometry = true ∧
    (ready 16#8).seq = .idle ∧ (ready 16#8).ct.col = 16#8 := by decide
theorem witness_InitResult_bus : (ready 0#8).par.specLayout = true ∧
    (ready 0#8).seq = .idle ∧ eOf twoPorts (ready 0#8).pe.d = false := by decide
theorem witness_SelectResult : (ready 0#8).seq = .idle ∧ (ready 0#8).par.isHandle (handleOf (ready 0#8).par 1#8) = true ∧ (ready 0#8).par.specWidths = true ∧
    (ready 0#8).par.specLayout = true := by decide
theorem witness_InvalidHandleFaults : (ready 0#8).seq = .idle ∧ (ready 0#8).par.isHandle (handleOf (ready 0#8).par 2#8) = false ∧ (ready 0#8).par.specWidths = true := by decide
theorem witness_OnlySelectFaults : (ready 0#8).seq = .idle ∧ ∃ t, exec (.setcfg 2#8) (ready 0#8) = .next t := ⟨rfl, _, rfl⟩
theorem witness_MoveInRangeSendsItsAddress : (ready 0#8).par.specLayout = true ∧ (ready 0#8).par.specGeometry = true ∧
    (ready 0#8).seq = .idle ∧ (1#8 : Byte).toNat ≤ 1 ∧ (15#8 : Byte).toNat < 16 ∧ (ready 0#8).par.addrCmdPrefix = 0x00#8 := by decide
theorem witness_NumberRendering : (ready 15#8).par.specLayout = true ∧ (ready 15#8).par.specGeometry = true ∧
    (ready 15#8).seq = .idle ∧ (ready 15#8).rsReady = true ∧ (ready 15#8).ct.col = 15#8 := by decide
theorem witness_NumberRendering_wrap : (ready 16#8).par.specLayout = true ∧ (ready 16#8).par.specGeometry = true ∧
    (ready 16#8).seq = .idle ∧ (ready 16#8).rsReady = true ∧ (ready 16#8).ct.col = 16#8 := by decide
theorem witness_ClrlineIsSpaces : (ready 0#8).par.specWidths = true ∧
    (ready 0#8).seq = .idle ∧ (ready 0#8).par.cols ≤ (16#8 : Byte).toNat := by decide
theorem witness_ClrlineFromItsColumn : (ready 16#8).par.specGeometry = true ∧
    (ready 16#8).seq = .idle ∧ (ready 16#8).ct.col = 16#8 ∧ (16#8 : Byte).toNat ≤ 16 := by decide
theorem witness_ClrfromBusBytes : (ready 16#8).par.specLayout = true ∧ (ready 16#8).par.specGeometry = true ∧
    (ready 16#8).seq = .idle ∧ (ready 16#8).rsReady = true := by decide
theorem witness_WriteWrapCountLaw : (ready 16#8).par.specLayout = true ∧ (ready 16#8).par.specGeometry = true ∧
    (ready 16#8).seq = .idle ∧ (ready 16#8).rsReady = true ∧ (ready 16#8).ct.col.toNat ≤ 16 := by decide
theorem witness_InstructionBytesAreListed : (ready 16#8).par.specGeometry = true ∧
    (∀ k, Instr.putc 0x41#8 ≠ .peCmd k) ∧ Txn.cmd 0x40#8 ∈ ctTxns twoPorts (.putc 0x41#8) (ready 16#8).ct := ⟨by decide, fun _ h => Instr.noConfusion h, by decide⟩
theorem witness_StepServesTheDecodedRequest_host : (Offers.host [0x030105#24]).pop = some (.host 0x030105#24, .host []) ∧
    decode (.host 0x030105#24) = .ok (.move 1#8 5#8) := by decide
theorem witness_StepServesTheDecodedRequest_pe : (Offers.peAlone [0x128#12]).pop = some (.pe 0x128#12, .peAlone []) ∧
    decode (.pe 0x128#12) = .ok (.peData 0x28#8) := by decide
theorem witness_StepServesTheDecodedRequest_interface : State.reset.offers.isPe = (Instr.move 1#8 5#8).isPe := rfl
theorem witness_InitResult_spec : (ready 0#8).par.specLayout = true ∧
    (ready 0#8).seq = .idle ∧ (ready 0#8).par.specBytes = true ∧ eOf twoPorts (ready 0#8).pe.d = false := by decide
theorem witness_ClearAndHomeResult_spec : (ready 16#8).par.specLayout = true ∧
    (ready 16#8).seq = .idle ∧ (ready 16#8).par.specBytes = true := by decide
theorem witness_NumberRendering_spec : (ready 14#8).par.specLayout = true ∧ (ready 14#8).par.specGeometry = true ∧
    (ready 14#8).seq = .idle ∧ (ready 14#8).rsReady = true ∧ (ready 14#8).par.specBytes = true := by decide
theorem witness_TransactionsOfRequests : twoPorts.specBytes = true := by decide
theorem witness_AssemblyNeedsWellFormedLines : ([255, 255].length ≠ 1) ∧ ([255].length ≠ 2) ∧ (∀ b ∈ [0, 255], b ≤ 255) ∧ ∃ b ∈ [0, 256], 255 < b := by decide
theorem witness_InstructionBytesAreListed_restore : (ready 16#8).par.specGeometry = true ∧
    (∀ k, Instr.clrfrom 0#8 15#8 ≠ .peCmd k) ∧
    Txn.cmd 0x10#8 ∈ ctTxns twoPorts (.clrfrom 0#8 15#8) (ready 16#8).ct := ⟨by decide, fun _ h => Instr.noConfusion h, by decide⟩
theorem witness_DisplayAddresses : twoPorts.specGeometry = true ∧
    (1#8 : Byte).toNat < 2 ∧ (15#8 : Byte).toNat < 16 := by decide
theorem witness_AddressPrefixConflict : twoPorts.specGeometry = true ∧
    (1#8 : Byte).toNat < 2 ∧ (15#8 : Byte).toNat < 16 ∧ twoPorts.addrCmdPrefix = 0x00#8 := by decide
theorem witness_AddressPrefixConflict_hd44780 : (readyPrefix 0x80#8 0#8).par.specGeometry = true ∧
    (0#8 : Byte).toNat < 2 ∧ (0#8 : Byte).toNat < 16 ∧ (readyPrefix 0x80#8 0#8).par.addrCmdPrefix = 0x80#8 := by decide
theorem witness_CursorIgnoresThePorts : (ready 3#8).par = (block 0x00#8 0x00#8 3#8).par ∧ (ready 3#8).ct = (block 0x00#8 0x00#8 3#8).ct ∧
    (ready 3#8).seq = .idle ∧ (block 0x00#8 0x00#8 3#8).seq = .idle ∧
    (∃ t, exec (.putc 0x41#8) (ready 3#8) = .next t) ∧ ∃ t, exec (.putc 0x41#8) (block 0x00#8 0x00#8 3#8) = .next t := 
  ⟨rfl, rfl, rfl, rfl, ⟨_, rfl⟩, ⟨_, rfl⟩⟩
theorem witness_RequestRunsAsMicroSteps : offered.resetReq = false ∧ offered.seq = .idle ∧
    offered.offers.pop = some (.host 0x030105#24, .host [0x000000#24]) ∧ decode (.host 0x030105#24) = .ok (.move 1#8 5#8) := by decide
theorem witness_RequestMinimumDuration : (ready 16#8).seq = .idle ∧ faultOf (ready 16#8).par (.putc 0x41#8) = none ∧
    ∃ t, exec (.putc 0x41#8) (ready 16#8) = .next t := ⟨rfl, rfl, _, rfl⟩
theorem witness_StepKeepsWellFormedness : offered.wf = true ∧ (∃ t, step offered = .next t) ∧ ∃ t, microStep offered = .next t := 
  ⟨by decide, ⟨_, rfl⟩, ⟨_, rfl⟩⟩
theorem witness_StepKeepsWellFormedness_busy : busyBlock.wf = true ∧ (∃ t, step busyBlock = .next t) ∧ ∃ t, microStep busyBlock = .next t := 
  ⟨by decide, ⟨_, rfl⟩, ⟨_, rfl⟩⟩
theorem witness_TraceOnlyGrows : (∃ t, step offered = .next t) ∧ ∃ t, microStep busyBlock = .next t := ⟨⟨_, rfl⟩, ⟨_, rfl⟩⟩
theorem witness_MarksAreSticky : let s : State := { offered with ct := { offered.ct with misuse := true } }
    s.resetReq = false ∧ s.ct.misuse = true ∧ (∃ t, step s = .next t) ∧ ∃ t, microStep s = .next t := 
  ⟨rfl, rfl, ⟨_, rfl⟩, ⟨_, rfl⟩⟩
theorem witness_MisuseOnlyFromMoves : (ready 3#8).par.specGeometry = true ∧
    (ready 3#8).seq = .idle ∧ ∃ t, exec (.move 2#8 16#8) (ready 3#8) = .next t := ⟨by decide, rfl, _, rfl⟩
theorem witness_RegisterAccessFrame : (∃ t, exec (.move 1#8 5#8) (ready 3#8) = .next t) ∧ writesActive (.move 1#8 5#8) = false ∧
    writesDir twoPorts (ready 3#8).pe.active (.move 1#8 5#8) ≠ some 0 ∧ writesSaved (.move 1#8 5#8) = false := ⟨⟨_, rfl⟩, by decide⟩
theorem witness_RegisterAccessFrame_select : (∃ t, exec (.setcfg 1#8) (ready 3#8) = .next t) ∧ writesData (.setcfg 1#8) = false ∧
    writesDir twoPorts (ready 3#8).pe.active (.setcfg 1#8) ≠ some 0 ∧ writesCol (.setcfg 1#8) = false := ⟨⟨_, rfl⟩, by decide⟩
theorem witness_OtherPortsSeeNothing : (ready 3#8).seq = .idle ∧ (∃ t, exec (.putc 0x41#8) (ready 3#8) = .next t) ∧ 1 ≠ (ready 3#8).pe.active := ⟨rfl, ⟨_, rfl⟩, by decide⟩
theorem witness_ReservedDataBitsKept : Instr.putc 0x41#8 ≠ .init ∧ Instr.putc 0x41#8 ≠ .pePortinit ∧ ∃ t, exec (.putc 0x41#8) (ready 3#8) = .next t := ⟨by decide, by decide, _, rfl⟩
theorem witness_DirectionRegisters : (∃ t, step offered = .next t) ∧ (∃ t, microStep busyBlock = .next t) ∧ offered.pe.configured twoPorts 0 = true := ⟨⟨_, rfl⟩, ⟨_, rfl⟩, by decide⟩
theorem witness_ConfiguredPortIsDriven : (ready 3#8).pe.configured twoPorts 0 = true ∧ ∃ t, exec .init (ready 3#8) = .next t := ⟨by decide, _, rfl⟩
theorem witness_DataModeBetweenRequests : (block 0x00#8 0x00#8 7#8).par.specLayout = true ∧
    (block 0x00#8 0x00#8 7#8).seq = .idle ∧ ∃ t, exec .init (block 0x00#8 0x00#8 7#8) = .next t := ⟨by decide, rfl, _, rfl⟩
theorem witness_TransactionBusBytes : twoPorts.specLayout = true := by decide
theorem witness_SendByteHighNibbleFirst : twoPorts.specLayout = true := by decide
theorem witness_MicroOperationTable : (ready 3#8).par.specLayout = true := by decide
theorem witness_TransactionsOfRequests_geometry : twoPorts.specGeometry = true := by decide
theorem witness_TransactionsOfRequests_widths : twoPorts.specWidths = true := by decide
theorem witness_DataModeBetweenRequests_kept : (ready 3#8).par.specLayout = true ∧
    (ready 3#8).seq = .idle ∧ writesActive (.putc 0x41#8) = false ∧ Instr.putc 0x41#8 ≠ .pePortinit ∧
    (ready 3#8).rsReady = true ∧ ∃ t, exec (.putc 0x41#8) (ready 3#8) = .next t := ⟨by decide, rfl, rfl, by decide, by decide, _, rfl⟩
theorem witness_ColumnStaysUpToSixteen : (ready 16#8).par.specGeometry = true ∧
    (ready 16#8).ct.col.toNat ≤ 16 ∧ outOfRangeMove twoPorts (ready 16#8).ct.col (.putc 0x41#8) = false ∧
    ∃ t, exec (.putc 0x41#8) (ready 16#8) = .next t := ⟨by decide, by decide, rfl, _, rfl⟩

end Sys2Proof.Tests
end

section
/-! The frame of a step: the output trace only grows, and no step changes the parameters or the interface that is modelled
(R9, R57, R7, R93). -/

namespace Sys2Proof.Machine

/-- What every step does to the trace, the parameters and the interface: `t`'s trace is `s`'s with events appended, and the
other two are `s`'s. -/
structure State.GrowsTo (s t : State) : Prop where
  trace : ∃ evs, t.trace = s.trace ++ evs
  par : t.par = s.par
  isPe : t.offers.isPe = s.offers.isPe

/-- A change of other fields than these. -/
theorem State.GrowsTo.of_eq {s t : State} (ht : t.trace = s.trace) (hp : t.par = s.par)
    (ho : t.offers.isPe = s.offers.isPe) : s.GrowsTo t :=
  ⟨⟨[], by simp [ht]⟩, hp, ho⟩

theorem State.GrowsTo.refl (s : State) : s.GrowsTo s := .of_eq rfl rfl rfl

theorem State.GrowsTo.trans {s t u : State} (h₁ : s.GrowsTo t) (h₂ : t.GrowsTo u) : s.GrowsTo u := by
  obtain ⟨evs₁, e₁⟩ := h₁.trace
  obtain ⟨evs₂, e₂⟩ := h₂.trace
  exact ⟨⟨evs₁ ++ evs₂, by simp [e₁, e₂]⟩, h₂.par.trans h₁.par, h₂.isPe.trans h₁.isPe⟩

theorem growsTo_run (m : MicroOp) (s : State) : s.GrowsTo (m.run s) := by
  refine ⟨?_, run_par m s, congrArg Offers.isPe (run_offers m s)⟩
  cases m with
  | pe op => exact ⟨_, run_pe_trace op s⟩
  | ct op => exact ⟨[], by simp⟩

theorem growsTo_runMicro (ms : List MicroOp) (s : State) : s.GrowsTo (s.runMicro ms) := by
  induction ms generalizing s with
  | nil => exact .refl s
  | cons m rest ih => exact (growsTo_run m s).trans (ih _)

theorem growsTo_raise (f : Fault) (s : State) : s.GrowsTo (s.raise f) := .of_eq rfl rfl rfl

theorem growsTo_carryOut (f : Option Fault) (sc : Script) (s : State) : s.GrowsTo (s.carryOut f sc) := by
  cases f with
  | none => exact growsTo_runMicro _ s
  | some f => exact growsTo_raise f s

theorem growsTo_exec {i : Instr} {s t : State} (h : exec i s = .next t) : s.GrowsTo t := by
  obtain ⟨-, rfl⟩ | ⟨-, rfl⟩ := exec_next_cases h
  · exact growsTo_carryOut _ _ s
  · exact .refl t

theorem growsTo_accept (i : Instr) (s : State) : s.GrowsTo (s.accept i) := by
  unfold State.accept
  split
  · exact growsTo_raise _ s
  · exact .of_eq rfl rfl rfl

theorem growsTo_advance (r : Instr) (j : Nat) (ops : List MicroOp) (s : State) : s.GrowsTo (s.advance r j ops) := by
  cases hm : ops[j]? with
  | some m => rw [advance_some hm]; exact (growsTo_run m s).trans (.of_eq rfl rfl rfl)
  | none => rw [advance_none hm]; exact .of_eq rfl rfl rfl

/-- A step of either grain keeps the frame when what it does with a decoded request does. -/
theorem growsTo_stepWith {k : Instr → State → Host.Outcome State Fault Refusal}
    (hk : ∀ {i u t}, k i u = .next t → u.GrowsTo t) {s t : State} (h : s.stepWith k = .next t) : s.GrowsTo t := by
  obtain ⟨-, rfl⟩ | ⟨-, r, j, ops, -, rfl⟩ | ⟨-, -, -, rfl⟩ | ⟨-, -, w, rest, hpop, hw⟩ := stepWith_next_cases h
  case inl => exact .of_eq rfl rfl rfl
  case inr.inl => exact growsTo_advance r j ops s
  case inr.inr.inl => exact .refl t
  case inr.inr.inr =>
    have htake : s.GrowsTo { s with offers := rest } := .of_eq rfl rfl (pop_isPe hpop)
    obtain ⟨r, -, rfl⟩ | ⟨i, -, hi⟩ := hw
    · exact htake.trans (.of_eq rfl rfl rfl)
    · exact htake.trans (hk hi)

theorem growsTo_step {s t : State} (h : step s = .next t) : s.GrowsTo t := growsTo_stepWith growsTo_exec h

theorem growsTo_microStep {s t : State} (h : microStep s = .next t) : s.GrowsTo t :=
  growsTo_stepWith (fun {i u _} he => by injection he with he; exact he ▸ growsTo_accept i u) h

/-- Settles O50: both grains are `stepWith`, and serving a request and accepting one each keep the frame. -/
theorem traceOnlyGrows : Obligations.TraceOnlyGrows := by
  intro s t h
  have hg : s.GrowsTo t := h.elim growsTo_step growsTo_microStep
  exact ⟨hg.trace, hg.par, hg.isPe⟩

end Sys2Proof.Machine
end

section
/-! Well-formedness is kept (R7, R21, R25, R30, R50, R93, R100, R110, R201): first the registers, by every micro-operation
that meets `opOk`; then that an accepted request expands to such micro-operations only; then the step. -/

namespace Sys2Proof.Machine

/-! ### The registers -/

/-- The port memory is canonical, lists registers of member handles only, and each of theirs reads as a value of its width. -/
structure PortsOk (p : Params) (m : List Host.Cell) : Prop where
  canonical : portsWf m = true
  members : portsBelow p.nPorts m = true
  width : portsInWidth p m = true

/-- The PE's part of well-formedness. -/
structure PeOk (p : Params) (q : Pe) : Prop where
  active : p.isHandle q.active = true
  ports : PortsOk p q.ports

/-- The part of well-formedness that is about the parameters and the registers, and not about the sequencer. -/
structure RegsOk (p : Params) (q : Pe) (c : Ct) : Prop where
  par : p.wf = true
  pe : PeOk p q
  ct : c.inWidth p = true

theorem wf_iff (s : State) :
    s.wf = true ↔
      RegsOk s.par s.pe s.ct ∧ seqOk s.par s.seq = true ∧ interfaceOk s.offers s.seq = true := by
  simp only [State.wf, Bool.and_eq_true]
  constructor
  · rintro ⟨⟨⟨⟨⟨⟨⟨hp, ha⟩, hc⟩, hm⟩, hw⟩, hct⟩, hs⟩, hi⟩
    exact ⟨⟨hp, ⟨ha, hc, hm, hw⟩, hct⟩, hs, hi⟩
  · rintro ⟨⟨hp, ⟨ha, hc, hm, hw⟩, hct⟩, hs, hi⟩
    exact ⟨⟨⟨⟨⟨⟨⟨hp, ha⟩, hc⟩, hm⟩, hw⟩, hct⟩, hs⟩, hi⟩

/-- An idle sequencer is legal, and of either interface. -/
theorem wf_iff_of_idle {s : State} (h : s.seq = .idle) : s.wf = true ↔ RegsOk s.par s.pe s.ct := by
  simp [wf_iff, h, seqOk, interfaceOk]

theorem wf_initialHandle {p : Params} (h : p.wf = true) : p.isHandle p.initialHandle = true := by
  simp only [Params.wf, Bool.and_eq_true] at h
  obtain ⟨⟨⟨⟨hinit, -⟩, -⟩, -⟩, -⟩ := h
  exact hinit

theorem portsInWidth_iff (p : Params) (m : List Host.Cell) :
    portsInWidth p m = true ↔ ∀ k < 2 * p.nPorts, p.portVal (portRead m k) = portRead m k := by
  simp [portsInWidth]

theorem inWidth_iff (p : Params) (c : Ct) :
    c.inWidth p = true ↔ p.colVal c.col = c.col ∧ p.colVal c.saved = c.saved := by
  simp [Ct.inWidth]

theorem portsInWidth_portWrite {p : Params} {m : List Host.Cell} (hm : portsInWidth p m = true) (a : Nat) {v : Byte}
    (hv : p.portVal v = v) : portsInWidth p (portWrite m a v) = true := by
  rw [portsInWidth_iff] at hm ⊢
  intro k hk
  by_cases ha : k = a
  · rw [ha, portRead_portWrite_self, hv]
  · rw [portRead_portWrite_ne m v ha, hm k hk]

theorem PortsOk.portWrite {p : Params} {m : List Host.Cell} (hm : PortsOk p m) {a : Nat} (ha : a < 2 * p.nPorts) {v : Byte}
    (hv : p.portVal v = v) : PortsOk p (portWrite m a v) :=
  ⟨portsWf_portWrite m a v hm.canonical, portsBelow_portWrite _ m a v hm.members ha, portsInWidth_portWrite hm.width a hv⟩

theorem dataKey_lt {p : Params} {h : Nat} (hh : p.isHandle h = true) : dataKey h < 2 * p.nPorts := by
  rw [isHandle_iff_lt] at hh
  simp only [dataKey]; omega

theorem dirKey_lt {p : Params} {h : Nat} (hh : p.isHandle h = true) : dirKey h < 2 * p.nPorts := by
  rw [isHandle_iff_lt] at hh
  simp only [dirKey]; omega

theorem PeOk.writeData {p : Params} {q : Pe} (hq : PeOk p q) {v : Byte} (hv : p.portVal v = v) :
    PeOk p (q.writeData q.active v).1 :=
  ⟨hq.active, hq.ports.portWrite (dataKey_lt hq.active) hv⟩

theorem PeOk.writeDir {p : Params} {q : Pe} (hq : PeOk p q) {h : Nat} (hh : p.isHandle h = true) {v : Byte}
    (hv : p.portVal v = v) : PeOk p (q.writeDir h v).1 :=
  ⟨hq.active, hq.ports.portWrite (dirKey_lt hh) hv⟩

/-- R100's micro-operations write values of a register's width, to registers of members. -/
theorem PeOk.run {p : Params} {q : Pe} (hq : PeOk p q) {op : PeOp} (hop : opOk p (.pe op) = true) :
    PeOk p (op.run p q).1 := by
  cases op with
  | eHi | eLo | rsHi | rsLo | put v => exact hq.writeData (portVal_portVal p _)
  | zero => exact hq.writeData (portVal_zero p)
  | dirCfg h => exact hq.writeDir hop (portVal_portVal p _)
  | setAct h => exact ⟨hop, hq.ports⟩
  | wait k => exact hq

theorem inWidth_run {p : Params} {c : Ct} (hc : c.inWidth p = true) (op : CtOp) : (op.run p c).inWidth p = true := by
  rw [inWidth_iff] at hc ⊢
  obtain ⟨hcol, hsaved⟩ := hc
  cases op with
  | setCol v => exact ⟨colVal_colVal p v, hsaved⟩
  | incCol => exact ⟨colVal_colVal p _, hsaved⟩
  | saveCol => exact ⟨hcol, hcol⟩
  | markMisuse => exact ⟨hcol, hsaved⟩

theorem regsOk_run {s : State} (hs : RegsOk s.par s.pe s.ct) {m : MicroOp} (hm : opOk s.par m = true) :
    RegsOk (m.run s).par (m.run s).pe (m.run s).ct := by
  cases m with
  | pe op => exact ⟨hs.par, hs.pe.run hm, hs.ct⟩
  | ct op => exact ⟨hs.par, hs.pe, inWidth_run hs.ct op⟩

theorem regsOk_runMicro {ms : List MicroOp} {s : State} (hs : RegsOk s.par s.pe s.ct)
    (hms : ms.all (opOk s.par) = true) :
    RegsOk (s.runMicro ms).par (s.runMicro ms).pe (s.runMicro ms).ct := by
  induction ms generalizing s with
  | nil => exact hs
  | cons m rest ih =>
    simp only [List.all_cons, Bool.and_eq_true] at hms
    exact ih (regsOk_run hs hms.1) (by rw [run_par]; exact hms.2)

/-- `SAVED` is drawn within its width (R26, U5). -/
theorem regsOk_blockReset {s : State} (hs : RegsOk s.par s.pe s.ct) :
    RegsOk s.blockReset.par s.blockReset.pe s.blockReset.ct :=
  ⟨hs.par, ⟨wf_initialHandle hs.par, hs.pe.ports⟩, (inWidth_iff _ _).2 ⟨colVal_zero _, colVal_colVal _ _⟩⟩

/-! ### The expansion of a request -/

/-- A transaction's micro-operations are legal when `ACTIVE` and the handle it selects are members. -/
theorem all_opOk_txnOps {p : Params} {a : Nat} (ha : p.isHandle a = true) {t : Txn}
    (ht : ∀ h, t = .select h → p.isHandle (handleOf p h) = true) :
    ((txnOps p a t).map MicroOp.pe).all (opOk p) = true := by
  cases t with
  | cmd b | data b => simp [txnOps, sendCmd, sendByte, nib, opOk, hiInPlace, loInPlace, inPlace_and]
  | portInit => simp [txnOps, opOk, ha]
  | select h => simp [txnOps, opOk, ht h rfl]

theorem all_opOk_of_noSelect {p : Params} {a : Nat} (ha : p.isHandle a = true) {steps : List CtStep}
    (hs : noSelect steps = true) : (steps.flatMap (CtStep.micro p a)).all (opOk p) = true := by
  induction steps with
  | nil => rfl
  | cons x rest ih =>
    rw [List.flatMap_cons, List.all_append, Bool.and_eq_true]
    cases x with
    | upd op => exact ⟨rfl, ih hs⟩
    | txn t =>
      cases t with
      | select h => cases hs
      | cmd b | data b | portInit => exact ⟨all_opOk_txnOps ha nofun, ih hs⟩

theorem isHandle_of_selectFault_none {p : Params} {h : Byte} (hf : selectFault p h = none) :
    p.isHandle (handleOf p h) = true := by
  simpa [selectFault] using hf

theorem seqOk_of_selectFault {p : Params} {h : Byte} {f : Fault} (hf : selectFault p h = some f) :
    seqOk p (.faulted f) = true := by
  obtain ⟨hn, rfl⟩ : p.isHandle (handleOf p h) = false ∧ .invalidHandle (handleOf p h) = f := by
    simpa [selectFault] using hf
  simp [seqOk, hn]

/-- `PE.SELECT h` with a member handle, as a request's whole pseudocode. -/
theorem all_opOk_expand_select {s : State} (ha : s.par.isHandle s.pe.active = true) {h : Byte}
    (hf : selectFault s.par h = none) : (s.expand (.txn (.select h))).all (opOk s.par) = true := by
  have ht : ∀ k, Txn.select h = .select k → s.par.isHandle (handleOf s.par k) = true := by
    rintro k ⟨⟩
    exact isHandle_of_selectFault_none hf
  simpa [State.expand, Script.txn, CtStep.micro] using all_opOk_txnOps ha ht

/-- A request that passes its handle check expands to legal micro-operations (R30, R100, R114). -/
theorem all_opOk_expand {s : State} (ha : s.par.isHandle s.pe.active = true) {i : Instr}
    (hf : faultOf s.par i = none) : (s.expand (scriptOf s.par i)).all (opOk s.par) = true := by
  cases hi : writesActive i with
  | false => exact all_opOk_of_noSelect ha (noSelect_scriptOf s.par i s.ct hi)
  | true =>
    cases i with
    | setcfg h | peSelect h => exact all_opOk_expand_select ha hf
    | _ => cases hi

/-- A fault a request raises records a handle that is no member (R201). -/
theorem seqOk_of_faultOf {p : Params} {i : Instr} {f : Fault} (hf : faultOf p i = some f) :
    seqOk p (.faulted f) = true := by
  cases i with
  | setcfg h | peSelect h => exact seqOk_of_selectFault hf
  | _ => cases hf

/-! ### The step -/

theorem wf_raise {s : State} (hs : RegsOk s.par s.pe s.ct) {i : Instr} {f : Fault} (hf : faultOf s.par i = some f) :
    (s.raise f).wf = true :=
  (wf_iff _).2 ⟨hs, seqOk_of_faultOf hf, rfl⟩

theorem wf_exec {i : Instr} {s t : State} (hs : s.wf = true) (h : exec i s = .next t) : t.wf = true := by
  obtain ⟨hidle, rfl⟩ | ⟨-, rfl⟩ := exec_next_cases h
  · have hr : RegsOk s.par s.pe s.ct := (wf_iff_of_idle hidle).1 hs
    cases hf : faultOf s.par i with
    | some f => exact wf_raise hr hf
    | none =>
      exact (wf_iff_of_idle ((runMicro_seq _ _).trans hidle)).2 (regsOk_runMicro hr (all_opOk_expand hr.pe.active hf))
  · exact hs

/-- An expansion just accepted has a next micro-operation, or none at all. -/
theorem seqOk_busy_zero {p : Params} {i : Instr} {ops : List MicroOp} (h : ops.all (opOk p) = true) :
    seqOk p (.busy i 0 ops) = true := by
  cases ops with
  | nil => rfl
  | cons m rest => simpa [seqOk] using h

theorem wf_accept {i : Instr} {s : State} (hs : RegsOk s.par s.pe s.ct) (hi : i.isPe = s.offers.isPe) :
    (s.accept i).wf = true := by
  unfold State.accept
  split
  · next f hf => exact wf_raise hs hf
  · next hf => exact (wf_iff _).2 ⟨hs, seqOk_busy_zero (all_opOk_expand hs.pe.active hf), by simpa [interfaceOk] using hi⟩

/-- The micro-operations of a legal busy sequencer are legal. -/
theorem all_opOk_of_seqOk {p : Params} {r : Instr} {j : Nat} {ops : List MicroOp}
    (h : seqOk p (.busy r j ops) = true) : ops.all (opOk p) = true := by
  simp only [seqOk, Bool.and_eq_true] at h
  exact h.1

theorem wf_advance {s : State} {r : Instr} {j : Nat} {ops : List MicroOp} (hs : s.wf = true)
    (hseq : s.seq = .busy r j ops) : (s.advance r j ops).wf = true := by
  obtain ⟨hr, hq, hi⟩ := (wf_iff s).1 hs
  rw [hseq] at hq hi
  have hops := all_opOk_of_seqOk hq
  cases hm : ops[j]? with
  | none => rw [advance_none hm]; exact (wf_iff_of_idle rfl).2 hr
  | some m =>
    have hrun := regsOk_run hr (List.all_eq_true.1 hops m (List.mem_of_getElem? hm))
    rw [advance_some hm]
    by_cases hlast : j + 1 < ops.length
    · rw [if_pos hlast]
      refine (wf_iff _).2 ⟨hrun, ?_, ?_⟩
      · simp only [run_par, seqOk, hops, hlast, decide_true, Bool.true_or, Bool.and_self]
      · rw [run_offers]; exact hi
    · rw [if_neg hlast]
      exact (wf_iff_of_idle rfl).2 hrun

/-- A step of either grain keeps a state well formed when what it does with a request of the interface that is modelled, from
a well-formed idle state, does. -/
theorem wf_stepWith {k : Instr → State → Host.Outcome State Fault Refusal}
    (hk : ∀ {i u t}, u.wf = true → u.seq = .idle → i.isPe = u.offers.isPe → k i u = .next t → t.wf = true)
    {s t : State} (hs : s.wf = true) (h : s.stepWith k = .next t) : t.wf = true := by
  obtain ⟨-, rfl⟩ | ⟨-, r, j, ops, hseq, rfl⟩ | ⟨-, -, -, rfl⟩ | ⟨-, hidle, w, rest, hpop, hw⟩ := stepWith_next_cases h
  case inl => exact (wf_iff_of_idle rfl).2 (regsOk_blockReset ((wf_iff s).1 hs).1)
  case inr.inl => exact wf_advance hs hseq
  case inr.inr.inl => exact hs
  case inr.inr.inr =>
    have hr : RegsOk s.par s.pe s.ct := (wf_iff_of_idle hidle).1 hs
    obtain ⟨r, -, rfl⟩ | ⟨i, hd, hi⟩ := hw
    · exact (wf_iff_of_idle (s := State.refuse { s with offers := rest } r) hidle).2 hr
    · have hu : State.wf { s with offers := rest } = true := (wf_iff_of_idle (s := { s with offers := rest }) hidle).2 hr
      exact hk hu hidle ((decode_pop_isPe hpop hd).trans (pop_isPe hpop).symm) hi

theorem wf_step {s t : State} (hs : s.wf = true) (h : step s = .next t) : t.wf = true :=
  wf_stepWith (fun hu _ _ he => wf_exec hu he) hs h

theorem wf_microStep {s t : State} (hs : s.wf = true) (h : microStep s = .next t) : t.wf = true :=
  wf_stepWith (fun hu hidle hi he => by
    injection he with he
    exact he ▸ wf_accept ((wf_iff_of_idle hidle).1 hu) hi) hs h

/-- Settles O48: every micro-operation that meets `opOk` keeps the registers well formed, and an accepted request expands to
such micro-operations only. -/
theorem stepKeepsWellFormedness : Obligations.StepKeepsWellFormedness :=
  fun _ _ hs => ⟨wf_step hs, wf_microStep hs⟩

end Sys2Proof.Machine
end

section
/-! One step of either grain, from each position of the sequencer (10_state R30, R31, R93, R205), and a request served at once
against the same request performed one micro-operation a step. -/

namespace Sys2Proof.Machine

/-! ### Acceptance and the busy sequencer -/

theorem accept_of_noFault {s : State} {i : Instr} (h : faultOf s.par i = none) :
    s.accept i = { s with seq := .busy i 0 (s.expand (scriptOf s.par i)) } := by
  simp [State.accept, h]

theorem accept_of_fault {s : State} {i : Instr} {f : Fault} (h : faultOf s.par i = some f) : s.accept i = s.raise f := by
  simp [State.accept, h]

@[simp] theorem advance_offers (s : State) (r : Instr) (j : Nat) (ops : List MicroOp) :
    (s.advance r j ops).offers = s.offers := by
  cases hm : ops[j]? with
  | some m => rw [advance_some hm]; exact run_offers m s
  | none => rw [advance_none hm]

theorem step_busy {s : State} {r : Instr} {j : Nat} {ops : List MicroOp} (hr : s.resetReq = false)
    (hs : s.seq = .busy r j ops) : step s = .next (s.advance r j ops) := stepWith_busy hr hs exec

theorem microStep_busy {s : State} {r : Instr} {j : Nat} {ops : List MicroOp} (hr : s.resetReq = false)
    (hs : s.seq = .busy r j ops) : microStep s = .next (s.advance r j ops) := stepWith_busy hr hs _

theorem step_offer {s : State} {w : CodeWord} {rest : Offers} {i : Instr} (hr : s.resetReq = false) (hs : s.seq = .idle)
    (ho : s.offers.pop = some (w, rest)) (hd : decode w = .ok i) : step s = exec i { s with offers := rest } := by
  rw [step, stepWith_offer hr hs ho, takeOffer_ok hd]

theorem microStep_offer {s : State} {w : CodeWord} {rest : Offers} {i : Instr} (hr : s.resetReq = false)
    (hs : s.seq = .idle) (ho : s.offers.pop = some (w, rest)) (hd : decode w = .ok i) :
    microStep s = .next (State.accept { s with offers := rest } i) := by
  rw [microStep, stepWith_offer hr hs ho, takeOffer_ok hd]

/-- Settles O11: the step takes the word and accepts its request, which raises no fault. -/
theorem acceptanceSetsBusy : Obligations.AcceptanceSetsBusy := by
  intro s w rest i hr hs ho hd hf
  rw [microStep_offer hr hs ho hd, accept_of_noFault (s := { s with offers := rest }) hf]
  rfl

/-- Settles O12: both grains advance a busy sequencer alike. -/
theorem busyStepPerformsOneMicroOp : Obligations.BusyStepPerformsOneMicroOp := by
  intro s r i ops m hr hs hm
  rw [step_busy hr hs, microStep_busy hr hs, advance_some hm]
  exact ⟨rfl, rfl⟩

/-- Settles O10: a busy block serves nothing, and performing a micro-operation takes no word. -/
theorem busyBlockLetsRequestsWait : Obligations.BusyBlockLetsRequestsWait := by
  intro s r k ops hs
  refine ⟨fun i => ?_, fun hr => ⟨s.advance r k ops, step_busy hr hs, microStep_busy hr hs, advance_offers s r k ops⟩⟩
  rw [exec_eq_serve, serve_busy hs]

/-! ### The words offered and their interface -/

/-- A word of the interface that is modelled, put first, leaves the others behind it. -/
theorem pop_push_of_isPe {o : Offers} {c : CodeWord} (h : (o.push c).isPe = o.isPe) : (o.push c).pop = some (c, o) := by
  cases c <;> cases o
  case host.host | pe.peAlone => rfl
  case host.peAlone | pe.host => cases h

theorem decode_of_decodeTableWord {nbits w : Nat} {i : Instr} (h : decodeTableWord nbits w = some i) :
    ∃ c, tableCodeWord nbits w = some c ∧ decode c = .ok i := by
  unfold decodeTableWord at h
  split at h
  · next c hc =>
    split at h
    · next j hd => cases h; exact ⟨c, hc, hd⟩
    · cases h
  · cases h

theorem withFetchWord_some {s : State} {nbits w : Nat} {c : CodeWord} (h : tableCodeWord nbits w = some c) :
    s.withFetchWord nbits w = { s with offers := s.offers.push c } := by
  simp [State.withFetchWord, h]

/-- The words left by a pop are of the interface they were. -/
theorem pop_host {ws : List (BitVec 24)} {w : CodeWord} {rest : Offers} (h : (Offers.host ws).pop = some (w, rest)) :
    ∃ ws', rest = .host ws' := by
  have hk : rest.isPe = false := pop_isPe h
  cases rest with
  | host ws' => exact ⟨ws', rfl⟩
  | peAlone ws' => cases hk

theorem pop_peAlone {ws : List (BitVec 12)} {w : CodeWord} {rest : Offers} (h : (Offers.peAlone ws).pop = some (w, rest)) :
    ∃ ws', rest = .peAlone ws' := by
  have hk : rest.isPe = true := pop_isPe h
  cases rest with
  | host ws' => cases hk
  | peAlone ws' => exact ⟨ws', rfl⟩

/-- The instructions of the PE alone are the transactions the CT issues (R91, R93). -/
theorem exists_txn_of_isPe {i : Instr} (h : i.isPe = true) : ∃ t : Txn, i = t.toInstr := by
  cases i with
  | peCmd b => exact ⟨.cmd b, rfl⟩
  | peData b => exact ⟨.data b, rfl⟩
  | pePortinit => exact ⟨.portInit, rfl⟩
  | peSelect k => exact ⟨.select k, rfl⟩
  | _ => cases h

/-- A word put where the step fetches is the next one served, and is put before the others when it is of their interface. -/
theorem step_withFetchWord {s : State} {nbits w : Nat} {i : Instr} (hr : s.resetReq = false) (hs : s.seq = .idle)
    (hd : decodeTableWord nbits w = some i) :
    ∃ rest, step (s.withFetchWord nbits w) = exec i { s with offers := rest } ∧
      (s.offers.isPe = i.isPe → rest = s.offers) := by
  obtain ⟨c, hc, hdc⟩ := decode_of_decodeTableWord hd
  obtain ⟨rest, hpop⟩ := pop_push s.offers c
  refine ⟨rest, ?_, fun hi => ?_⟩
  · rw [withFetchWord_some hc]
    exact step_offer (s := { s with offers := s.offers.push c }) hr hs hpop hdc
  · have hk : (s.offers.push c).isPe = s.offers.isPe := (decode_pop_isPe hpop hdc).symm.trans hi.symm
    have hsame := hpop.symm.trans (pop_push_of_isPe hk)
    cases hsame
    rfl

/-- Settles O7: the step takes the next word, and a word's interface is that of the request it decodes to. -/
theorem stepServesTheDecodedRequest : Obligations.StepServesTheDecodedRequest := by
  refine ⟨fun s w rest i => step_offer, fun s nbits w i => step_withFetchWord, fun ws w rest i hpop hd => ?_,
    fun ws w rest i hpop hd => ⟨pop_peAlone hpop, exists_txn_of_isPe (decode_pop_isPe hpop hd)⟩⟩
  have hi : i.isPe = false := decode_pop_isPe hpop hd
  refine ⟨pop_host hpop, ?_, ?_, ?_, ?_⟩
  case refine_3 => rintro rfl; cases hi
  all_goals rintro b rfl; cases hi

/-! ### A request at once is the sequencer run to its end -/

/-- `n` steps of the sequencer lead from `s` to `t`, and the host sees the block busy before each of them (R31). -/
structure State.BusyUntil (s : State) (n : Nat) (t : State) : Prop where
  run : microRun n s = .next t
  busy : ∀ k < n, ∃ u, microRun k s = .next u ∧ u.hostSeesBusy = true

theorem State.BusyUntil.refl (s : State) : s.BusyUntil 0 s := ⟨rfl, nofun⟩

theorem microRun_succ {s t : State} (h : microStep s = .next t) (k : Nat) : microRun (k + 1) s = microRun k t := by
  simp [microRun, h]

theorem State.BusyUntil.cons {s s' t : State} {n : Nat} (hs : s.hostSeesBusy = true) (hstep : microStep s = .next s')
    (h : s'.BusyUntil n t) : s.BusyUntil (n + 1) t := by
  refine ⟨(microRun_succ hstep n).trans h.run, fun k hk => ?_⟩
  cases k with
  | zero => exact ⟨s, rfl, hs⟩
  | succ k => rw [microRun_succ hstep]; exact h.busy k (by omega)

/-- Micro-operations neither read nor write `SEQ`. -/
theorem runMicro_withSeq (q : Seq) (ms : List MicroOp) (s : State) :
    State.runMicro { s with seq := q } ms = { s.runMicro ms with seq := q } := by
  induction ms generalizing s with
  | nil => rfl
  | cons m rest ih =>
    have hm : m.run { s with seq := q } = { m.run s with seq := q } := by cases m <;> rfl
    rw [runMicro_cons, hm, ih, runMicro_cons]

theorem withSeq_self {s : State} {q : Seq} (h : s.seq = q) : { s with seq := q } = s := by
  subst h; rfl

theorem hostSeesBusy_of_busy {s : State} {r : Instr} {j : Nat} {ops : List MicroOp} (h : s.seq = .busy r j ops) :
    s.hostSeesBusy = true := by
  simp [State.hostSeesBusy, h]

/-- A busy sequencer performs the micro-operations still to come, and is idle after the last of them (R30), after one step if
there is none (log 12). -/
theorem exists_busyUntil {r : Instr} {ops : List MicroOp} (todo : List MicroOp) {s : State} {j : Nat}
    (hr : s.resetReq = false) (hs : s.seq = .busy r j ops) (hj : ops.drop j = todo) :
    ∃ n, s.BusyUntil n { s.runMicro todo with seq := .idle } := by
  have hbusy := hostSeesBusy_of_busy hs
  have hstep := microStep_busy hr hs
  have hget : ops[j]? = todo.head? := by rw [← hj, List.head?_drop]
  induction todo generalizing s j with
  | nil =>
    rw [advance_none hget] at hstep
    exact ⟨1, .cons hbusy hstep (.refl _)⟩
  | cons m rest ih =>
    have hrest : ops.drop (j + 1) = rest := by rw [← List.drop_drop, hj]; rfl
    have hlen : ops.length - (j + 1) = rest.length := by rw [← hrest, List.length_drop]
    rw [advance_some hget] at hstep
    cases rest with
    | nil =>
      rw [if_neg (by simp only [List.length_nil] at hlen; omega)] at hstep
      exact ⟨1, .cons hbusy hstep (.refl _)⟩
    | cons m' rest' =>
      rw [if_pos (by simp only [List.length_cons] at hlen; omega)] at hstep
      have hr' : (m.run s).resetReq = false := (run_resetReq m s).trans hr
      obtain ⟨n, hn⟩ := ih (s := { m.run s with seq := .busy r (j + 1) ops }) (j := j + 1) hr' rfl hrest
        (hostSeesBusy_of_busy rfl) (microStep_busy hr' rfl) (by rw [← hrest, List.head?_drop])
      rw [runMicro_withSeq] at hn
      exact ⟨n + 1, .cons hbusy hstep hn⟩

/-- From acceptance the sequencer reaches what serving the request at once answers. -/
theorem exists_busyUntil_accept {s : State} (hr : s.resetReq = false) (hs : s.seq = .idle) (i : Instr) :
    ∃ n t, (s.accept i).BusyUntil n t ∧ exec i s = .next t := by
  rw [exec_idle hs]
  cases hf : faultOf s.par i with
  | some f =>
    rw [accept_of_fault hf, carryOut_some]
    exact ⟨0, _, .refl _, rfl⟩
  | none =>
    rw [accept_of_noFault hf, carryOut_none]
    obtain ⟨n, hn⟩ := exists_busyUntil (s := { s with seq := .busy i 0 (s.expand (scriptOf s.par i)) }) _ hr rfl rfl
    have hidle : (s.runMicro (s.expand (scriptOf s.par i))).seq = .idle := (runMicro_seq s _).trans hs
    rw [List.drop_zero, runMicro_withSeq, withSeq_self hidle] at hn
    exact ⟨n, _, hn, rfl⟩

/-- Settles O46: acceptance is the first step, and from there the sequencer runs the request to its end. -/
theorem requestRunsAsMicroSteps : Obligations.RequestRunsAsMicroSteps := by
  intro i s w rest hr hs ho hd
  have hfirst := microStep_offer hr hs ho hd
  obtain ⟨n, t, hrun, hexec⟩ := exists_busyUntil_accept (s := { s with offers := rest }) hr hs i
  refine ⟨n + 1, n.succ_pos, ?_, fun k hk0 hkn => ?_⟩
  · rw [microRun_succ hfirst, hrun.run, hexec]
  · obtain ⟨j, rfl⟩ := Nat.exists_eq_succ_of_ne_zero hk0.ne'
    rw [Nat.succ_eq_add_one, microRun_succ hfirst]
    exact hrun.busy j (by omega)

end Sys2Proof.Machine
end

section
/-! What a step keeps (10_state R24, R27, 60_exceptions R202, R203): a property of the registers that every micro-operation
keeps is kept by a step of either grain. -/

namespace Sys2Proof.Machine

/-! ### The induction over a step, once -/

@[simp] theorem accept_pe (s : State) (i : Instr) : (s.accept i).pe = s.pe := by
  unfold State.accept; split <;> rfl

@[simp] theorem accept_ct (s : State) (i : Instr) : (s.accept i).ct = s.ct := by
  unfold State.accept; split <;> rfl

@[simp] theorem accept_refusals (s : State) (i : Instr) : (s.accept i).refusals = s.refusals := by
  unfold State.accept; split <;> rfl

/-- Each micro-operation keeps a property of the PE's and the CT's registers. -/
structure KeptByMicroOps (p : Params) (P : Pe → Ct → Prop) : Prop where
  pe : ∀ (op : PeOp) (q : Pe) (c : Ct), P q c → P (op.run p q).1 c
  ct : ∀ (op : CtOp) (q : Pe) (c : Ct), P q c → P q (op.run p c)

theorem KeptByMicroOps.run {s : State} {P : Pe → Ct → Prop} (hP : KeptByMicroOps s.par P) (hs : P s.pe s.ct)
    (m : MicroOp) : P (m.run s).pe (m.run s).ct := by
  cases m with
  | pe op => exact hP.pe op _ _ hs
  | ct op => exact hP.ct op _ _ hs

theorem KeptByMicroOps.runMicro {s : State} {P : Pe → Ct → Prop} (hP : KeptByMicroOps s.par P) (hs : P s.pe s.ct)
    (ms : List MicroOp) : P (s.runMicro ms).pe (s.runMicro ms).ct := by
  induction ms generalizing s with
  | nil => exact hs
  | cons m rest ih => exact ih ((run_par m s).symm ▸ hP) (hP.run hs m)

theorem KeptByMicroOps.exec {s t : State} {P : Pe → Ct → Prop} (hP : KeptByMicroOps s.par P) (hs : P s.pe s.ct)
    {i : Instr} (h : exec i s = .next t) : P t.pe t.ct := by
  obtain ⟨-, rfl⟩ | ⟨-, rfl⟩ := exec_next_cases h
  · cases faultOf s.par i with
    | none => exact hP.runMicro hs _
    | some f => exact hs
  · exact hs

theorem KeptByMicroOps.advance {s : State} {P : Pe → Ct → Prop} (hP : KeptByMicroOps s.par P) (hs : P s.pe s.ct)
    (r : Instr) (j : Nat) (ops : List MicroOp) : P (s.advance r j ops).pe (s.advance r j ops).ct := by
  cases hm : ops[j]? with
  | some m => rw [advance_some hm]; exact hP.run hs m
  | none => rw [advance_none hm]; exact hs

/-- A step keeps what micro-operations and block reset keep, when what it does with a decoded request does. -/
theorem KeptByMicroOps.stepWith {s t : State} {P : Pe → Ct → Prop} (hP : KeptByMicroOps s.par P) (hs : P s.pe s.ct)
    (hreset : s.resetReq = true → P s.blockReset.pe s.blockReset.ct)
    {k : Instr → State → Host.Outcome State Fault Refusal}
    (hk : ∀ {i u t}, u.par = s.par → P u.pe u.ct → k i u = .next t → P t.pe t.ct)
    (h : s.stepWith k = .next t) : P t.pe t.ct := by
  obtain ⟨hr, rfl⟩ | ⟨-, r, j, ops, -, rfl⟩ | ⟨-, -, -, rfl⟩ | ⟨-, -, w, rest, -, hw⟩ := stepWith_next_cases h
  case inl => exact hreset hr
  case inr.inl => exact hP.advance hs r j ops
  case inr.inr.inl => exact hs
  case inr.inr.inr =>
    obtain ⟨r, -, rfl⟩ | ⟨i, -, hi⟩ := hw
    · exact hs
    · exact hk (u := { s with offers := rest }) rfl hs hi

theorem KeptByMicroOps.step {s t : State} {P : Pe → Ct → Prop} (hP : KeptByMicroOps s.par P) (hs : P s.pe s.ct)
    (hreset : s.resetReq = true → P s.blockReset.pe s.blockReset.ct)
    (h : step s = .next t ∨ microStep s = .next t) : P t.pe t.ct := by
  cases h with
  | inl h => exact hP.stepWith hs hreset (fun hp hu he => KeptByMicroOps.exec (hp ▸ hP) hu he) h
  | inr h =>
    refine hP.stepWith hs hreset (fun {i u v} _ hu he => ?_) h
    injection he with he
    rwa [← he, accept_pe, accept_ct]

/-! ### The marks -/

/-- A request records no refusal: only a reserved word does (R203). -/
theorem exec_refusals {i : Instr} {s t : State} (h : exec i s = .next t) : t.refusals = s.refusals := by
  obtain ⟨-, rfl⟩ | ⟨-, rfl⟩ := exec_next_cases h
  · cases faultOf s.par i with
    | none => exact runMicro_refusals s _
    | some f => rfl
  · rfl

@[simp] theorem advance_refusals (s : State) (r : Instr) (j : Nat) (ops : List MicroOp) :
    (s.advance r j ops).refusals = s.refusals := by
  cases hm : ops[j]? with
  | some m => rw [advance_some hm]; exact run_refusals m s
  | none => rw [advance_none hm]

/-- Without block reset a step only adds to the refusals, when a decoded request leaves them. -/
theorem refusals_stepWith {s t : State} {k : Instr → State → Host.Outcome State Fault Refusal}
    (hk : ∀ {i u t}, k i u = .next t → t.refusals = u.refusals) (hr : s.resetReq = false)
    (h : s.stepWith k = .next t) : ∃ rs, t.refusals = s.refusals ++ rs := by
  obtain ⟨hreset, -⟩ | ⟨-, r, j, ops, -, rfl⟩ | ⟨-, -, -, rfl⟩ | ⟨-, -, w, rest, -, hw⟩ := stepWith_next_cases h
  case inl => rw [hr] at hreset; cases hreset
  case inr.inl => exact ⟨[], by simp⟩
  case inr.inr.inl => exact ⟨[], by simp⟩
  case inr.inr.inr =>
    obtain ⟨r, -, rfl⟩ | ⟨i, -, hi⟩ := hw
    · exact ⟨[r], rfl⟩
    · exact ⟨[], by rw [hk hi, List.append_nil]⟩

/-- No micro-operation clears the misuse mark (R202). -/
theorem misuse_kept (p : Params) : KeptByMicroOps p fun _ c => c.misuse = true where
  pe _ _ _ h := h
  ct op _ _ h := by
    cases op with
    | setCol v | incCol | saveCol => exact h
    | markMisuse => rfl

/-- Settles O51: no micro-operation clears `MISUSE`, and a step adds refused words only. -/
theorem marksAreSticky : Obligations.MarksAreSticky := by
  intro s t hr h
  refine ⟨fun hm => (misuse_kept s.par).step hm (fun hreset => ?_) h, ?_⟩
  · rw [hr] at hreset; cases hreset
  · cases h with
    | inl h => exact refusals_stepWith exec_refusals hr h
    | inr h =>
      refine refusals_stepWith (fun {i u v} he => ?_) hr h
      injection he with he
      rw [← he, accept_refusals]

/-! ### The direction registers -/

/-- What `DIRCFG` writes keeps the bits outside `DIR_MASK` that are bits of the register (R24). -/
theorem portVal_dirCfg_outside (p : Params) (d : Byte) :
    p.portVal (p.portVal (d ||| p.dirMask) &&& ~~~p.dirMask) = p.portVal (d &&& ~~~p.dirMask) := by
  have hmask : (d ||| p.dirMask) &&& ~~~p.dirMask = d &&& ~~~p.dirMask := by
    rw [BitVec.and_or_distrib_right, BitVec.and_not_self]
    exact BitVec.or_zero
  rw [portVal_and, portVal_portVal, hmask]

/-- A direction register after a PE micro-operation: what `DIRCFG` writes, if it is that port's, or what it was. -/
theorem run_dir (p : Params) (op : PeOp) (q : Pe) (h : Nat) :
    (op.run p q).1.dir h = p.portVal (q.dir h ||| p.dirMask) ∨ (op.run p q).1.dir h = q.dir h := by
  cases op with
  | eHi | eLo | rsHi | rsLo | put v | zero => exact .inr (writeData_dir ..)
  | setAct k | wait k => exact .inr rfl
  | dirCfg k =>
    rw [PeOp.run, writeDir_dir]
    split
    · next hk => subst hk; exact .inl rfl
    · exact .inr rfl

theorem dir_outside_kept (p : Params) (h : Nat) (v : Byte) :
    KeptByMicroOps p fun q _ => p.portVal (q.dir h &&& ~~~p.dirMask) = v where
  pe op q _ hq := by
    obtain hd | hd := run_dir p op q h
    · rw [hd, portVal_dirCfg_outside, hq]
    · rw [hd, hq]
  ct _ _ _ hq := hq

theorem configured_kept (p : Params) (h : Nat) : KeptByMicroOps p fun q _ => q.configured p h = true where
  pe op q _ hq := by
    simp only [Pe.configured, beq_iff_eq] at hq ⊢
    obtain hd | hd := run_dir p op q h
    · rw [hd, dirCfg_and_drivenMask]
    · rw [hd, hq]
  ct _ _ _ hq := hq

/-- Settles O56: `DIRCFG` alone writes a direction register, and it only sets bits of `DIR_MASK`. -/
theorem directionRegisters : Obligations.DirectionRegisters := by
  intro s t h hstep
  have houtside := (dir_outside_kept s.par h _).step rfl (fun _ => rfl) hstep
  refine ⟨houtside, fun hl => ?_, fun hc => (configured_kept s.par h).step hc (fun _ => hc) hstep⟩
  obtain ⟨-, -, -, -, hdir, -⟩ := specLayout_masks hl
  simpa [specLayout_portVal hl, hdir] using houtside

end Sys2Proof.Machine
end

section
/-! Which registers a request may write (10_state R23, R28, 40_protocol_engine R110 to R114). The CT's and the PE's registers
after a request are found separately (41 R155): the PE's by what each micro-operation leaves alone, the CT's by the pseudocode. -/

namespace Sys2Proof.Machine

/-! ### A request as its transactions and its register updates -/

/-- `SETCFG` and `PE.SELECT` carried out: the PE serves `PE.SELECT`, which does nothing where the request faults (R114, R141). -/
theorem carryOut_select (s : State) (h : Byte) :
    (s.carryOut (selectFault s.par h) (.txn (.select h))).pe = (peTxn s.par (.select h) s.pe).1 ∧
      (s.carryOut (selectFault s.par h) (.txn (.select h))).ct = s.ct := by
  cases hf : selectFault s.par h with
  | some f => rw [peTxn_some (t := .select h) hf]; exact ⟨rfl, rfl⟩
  | none => rw [peTxn_none (t := .select h) hf]; exact ⟨rfl, rfl⟩

/-- The units' registers after a request that is carried out (R155). -/
theorem carryOut_units (s : State) (i : Instr) :
    (s.carryOut (faultOf s.par i) (scriptOf s.par i)).pe = (peTxns s.par (ctTxns s.par i s.ct) s.pe).1 ∧
      (s.carryOut (faultOf s.par i) (scriptOf s.par i)).ct = ctAfter s.par i s.ct := by
  cases hi : writesActive i with
  | true =>
    cases i with
    | setcfg h | peSelect h => exact carryOut_select s h
    | _ => cases hi
  | false =>
    have hf : faultOf s.par i = none := by
      cases i with
      | setcfg h | peSelect h => cases hi
      | _ => rfl
    rw [hf, carryOut_none, State.expand, runMicro_steps _ _ (noSelect_scriptOf s.par i s.ct hi)]
    exact ⟨rfl, rfl⟩

/-! ### Transactions that send a byte -/

/-- A transaction that sends one byte on the bus (R111, R112). -/
def sendsByte : Txn → Bool
  | .cmd _ => true
  | .data _ => true
  | .portInit => false
  | .select _ => false

/-- Some pseudocode's transactions all send a byte. -/
def Script.SendsBytes (sc : Script) : Prop := ∀ c : Ct, (txnsOf (sc c)).all sendsByte = true

theorem sendsBytes_move (p : Params) (r c : Byte) : (moveScript p r c).SendsBytes := by
  intro ct
  rw [txnsOf_move]
  rfl

theorem sendsBytes_putc (p : Params) (ch : Byte) : (putcScript p ch).SendsBytes := by
  intro ct
  rw [txnsOf_putc, putTxns]
  split <;> rfl

theorem sendsBytes_andThen {p : Params} {a b : Script} (ha : a.SendsBytes) (hb : b.SendsBytes) :
    (Script.andThen p a b).SendsBytes := by
  intro ct
  rw [andThen_txns, List.all_append, ha, hb]
  rfl

theorem sendsBytes_spaces (p : Params) (k : Nat) : (spacesScript p k).SendsBytes := by
  induction k with
  | zero => exact fun _ => rfl
  | succ k ih => exact sendsBytes_andThen (sendsBytes_putc p p.charSpace) ih

theorem sendsBytes_cascade (p : Params) (x : Byte) : (cascadeScript p x).SendsBytes := by
  unfold cascadeScript
  split
  · exact sendsBytes_andThen (sendsBytes_move p _ _) (sendsBytes_spaces p _)
  · exact fun _ => rfl

theorem sendsBytes_clrfrom (p : Params) (x y : Byte) : (clrfromScript p x y).SendsBytes :=
  have hsave : (Script.upd .saveCol).SendsBytes := fun _ => rfl
  have hrestore : (restoreScript p x).SendsBytes := fun ct => sendsBytes_move p x ct.saved ct
  sendsBytes_andThen hsave <| sendsBytes_andThen (sendsBytes_move p x y) <|
    sendsBytes_andThen (sendsBytes_spaces p _) <| sendsBytes_andThen (sendsBytes_cascade p x) hrestore

/-- A request that writes no direction register sends bytes and does nothing else to the port (R156). -/
theorem sendsBytes_scriptOf (p : Params) {a : Nat} {i : Instr} (h : writesDir p a i = none) :
    (scriptOf p i).SendsBytes := by
  cases i with
  | setcfg k | peSelect k | init | pePortinit => cases h
  | move r c => exact sendsBytes_move p _ _
  | putc ch => exact sendsBytes_putc p _
  | number n => exact sendsBytes_andThen (sendsBytes_putc p _) (sendsBytes_putc p _)
  | clrline c => exact sendsBytes_spaces p _
  | clrfrom x y => exact sendsBytes_clrfrom p _ _
  | clear | home | peCmd b | peData b => exact fun _ => rfl

/-! ### What sending bytes leaves alone -/

/-- `q'` is `q` but for the lines of the active port that the block drives. -/
structure Pe.DrivenTo (p : Params) (q q' : Pe) : Prop where
  active : q'.active = q.active
  dir : ∀ h, q'.dir h = q.dir h
  other : ∀ h, h ≠ q.active → q'.data h = q.data h
  reserved : ∀ h, rsvOf p (q'.data h) = rsvOf p (q.data h)

theorem Pe.DrivenTo.refl (p : Params) (q : Pe) : q.DrivenTo p q := ⟨rfl, fun _ => rfl, fun _ _ => rfl, fun _ => rfl⟩

theorem Pe.DrivenTo.trans {p : Params} {q q' q'' : Pe} (h₁ : q.DrivenTo p q') (h₂ : q'.DrivenTo p q'') :
    q.DrivenTo p q'' where
  active := h₂.active.trans h₁.active
  dir h := (h₂.dir h).trans (h₁.dir h)
  other h hh := (h₂.other h (h₁.active.symm ▸ hh)).trans (h₁.other h hh)
  reserved h := (h₂.reserved h).trans (h₁.reserved h)

/-- A write of the active port's data register drives its lines only, when it keeps the reserved bits. -/
theorem drivenTo_writeData {p : Params} {q : Pe} {v : Byte} (hv : rsvOf p v = rsvOf p q.d) :
    q.DrivenTo p (q.writeData q.active (p.portVal v)).1 where
  active := rfl
  dir h := writeData_dir ..
  other h hh := by rw [writeData_data, if_neg hh]
  reserved h := by
    rw [writeData_data]
    split
    · next hh => rw [rsvOf_portVal, hv, hh]; rfl
    · rfl

/-- The reserved bits are none of the nibble's, of RS and of E. -/
theorem rsvMask_bit {p : Params} {j : Nat} (h : p.rsvMask.getLsbD j = true) :
    p.nibbleMask.getLsbD j = false ∧ p.rsMask.getLsbD j = false ∧ p.eMask.getLsbD j = false := by
  simp only [Params.rsvMask, Params.portVal, BitVec.getLsbD_and, BitVec.getLsbD_not, BitVec.getLsbD_or, Bool.and_eq_true,
    Bool.not_eq_true', Bool.or_eq_false_iff] at h
  obtain ⟨⟨-, ⟨hn, hr⟩, he⟩, -⟩ := h
  exact ⟨hn, hr, he⟩

/-- Two values have the same reserved bits when they agree on each of them. -/
theorem rsvOf_congr {p : Params} {v w : Byte}
    (h : ∀ j, p.rsvMask.getLsbD j = true → v.getLsbD j = w.getLsbD j) : rsvOf p v = rsvOf p w := by
  apply BitVec.eq_of_getLsbD_eq
  intro j _
  simp only [rsvOf, BitVec.getLsbD_and]
  cases hj : p.rsvMask.getLsbD j with
  | false => simp
  | true => rw [h j hj]

/-- Setting or clearing E or RS, or putting a nibble in its place, keeps the reserved bits (R100). -/
theorem rsvOf_or {p : Params} {m : Byte} (hm : m = p.eMask ∨ m = p.rsMask) (d : Byte) :
    rsvOf p (d ||| m) = rsvOf p d :=
  rsvOf_congr fun j hj => by
    obtain ⟨-, hr, he⟩ := rsvMask_bit hj
    obtain rfl | rfl := hm <;> simp [hr, he]

theorem rsvOf_and_not {p : Params} {m : Byte} (hm : m = p.eMask ∨ m = p.rsMask ∨ m = p.nibbleMask) (d : Byte) :
    rsvOf p (d &&& ~~~m) = rsvOf p d :=
  rsvOf_congr fun j hj => by
    obtain ⟨hn, hr, he⟩ := rsvMask_bit hj
    have hd : d.getLsbD j = true → j < 8 := BitVec.lt_of_getLsbD
    obtain rfl | rfl | rfl := hm <;> simpa [hn, hr, he] using hd

theorem rsvOf_put {p : Params} {v : Byte} (hv : v &&& ~~~p.nibbleMask = 0#8) (d : Byte) :
    rsvOf p (v ||| (d &&& ~~~p.nibbleMask)) = rsvOf p d := by
  rw [← rsvOf_and_not (.inr (.inr rfl)) d]
  refine rsvOf_congr fun j hj => ?_
  obtain ⟨hn, -, -⟩ := rsvMask_bit hj
  have hvj : v.getLsbD j = false := by
    have hbit : (v &&& ~~~p.nibbleMask).getLsbD j = (0#8).getLsbD j := by rw [hv]
    simpa only [BitVec.getLsbD_and, BitVec.getLsbD_not, hn, BitVec.lt_of_getLsbD hj, decide_true, Bool.not_false,
      Bool.and_true, BitVec.getLsbD_zero] using hbit
  rw [BitVec.getLsbD_or, hvj, Bool.false_or]

/-- The micro-operations of a byte's transaction: writes of the lines, and waits (R101 to R104). -/
def drivesLines (p : Params) : PeOp → Bool
  | .eHi => true
  | .eLo => true
  | .rsHi => true
  | .rsLo => true
  | .put v => v &&& ~~~p.nibbleMask == 0#8
  | .zero => false
  | .dirCfg _ => false
  | .setAct _ => false
  | .wait _ => true

theorem drivenTo_run {p : Params} {op : PeOp} (hop : drivesLines p op = true) (q : Pe) :
    q.DrivenTo p (op.run p q).1 := by
  cases op with
  | eHi => exact drivenTo_writeData (rsvOf_or (.inl rfl) _)
  | eLo => exact drivenTo_writeData (rsvOf_and_not (.inl rfl) _)
  | rsHi => exact drivenTo_writeData (rsvOf_or (.inr rfl) _)
  | rsLo => exact drivenTo_writeData (rsvOf_and_not (.inr (.inl rfl)) _)
  | put v => exact drivenTo_writeData (rsvOf_put (by simpa [drivesLines] using hop) _)
  | wait k => exact .refl p q
  | zero | dirCfg k | setAct k => cases hop

theorem drivenTo_peOps {p : Params} {ops : List PeOp} (hops : ops.all (drivesLines p) = true) (q : Pe) :
    q.DrivenTo p (peOps p ops q).1 := by
  induction ops generalizing q with
  | nil => exact .refl p q
  | cons op rest ih =>
    rw [List.all_cons, Bool.and_eq_true] at hops
    exact (drivenTo_run hops.1 q).trans (ih hops.2 _)

theorem drivesLines_sendByte (p : Params) (b : Byte) : (sendByte p b).all (drivesLines p) = true := by
  simp [sendByte, nib, drivesLines, hiInPlace, loInPlace, inPlace_and]

theorem drivesLines_sendCmd (p : Params) (b : Byte) : (sendCmd p b).all (drivesLines p) = true := by
  rw [sendCmd, List.all_append, List.all_append, drivesLines_sendByte]
  rfl

theorem drivenTo_peTxn {p : Params} {t : Txn} (ht : sendsByte t = true) (q : Pe) : q.DrivenTo p (peTxn p t q).1 := by
  cases t with
  | cmd b => exact drivenTo_peOps (drivesLines_sendCmd p b) q
  | data b => exact drivenTo_peOps (drivesLines_sendByte p b) q
  | portInit | select h => cases ht

theorem drivenTo_peTxns {p : Params} {ts : List Txn} (hts : ts.all sendsByte = true) (q : Pe) :
    q.DrivenTo p (peTxns p ts q).1 := by
  induction ts generalizing q with
  | nil => exact .refl p q
  | cons t rest ih =>
    rw [List.all_cons, Bool.and_eq_true] at hts
    exact (drivenTo_peTxn hts.1 q).trans (ih hts.2 _)

/-- A request that writes no direction register drives the lines of the active port, and does nothing else to the PE. -/
theorem drivenTo_ctTxns {p : Params} {a : Nat} {i : Instr} (h : writesDir p a i = none) (c : Ct) (q : Pe) :
    q.DrivenTo p (peTxns p (ctTxns p i c) q).1 :=
  drivenTo_peTxns (sendsBytes_scriptOf p h c) q

/-! ### The frame of the PE's registers (R28) -/

/-- `q'` differs from `q` only in PE registers that R28 lets the request write. -/
structure PeFrame (p : Params) (i : Instr) (q q' : Pe) : Prop where
  active : writesActive i = false → q'.active = q.active
  data : ∀ h, writesData i = false ∨ h ≠ q.active → q'.data h = q.data h
  dir : ∀ h, writesDir p q.active i ≠ some h → q'.dir h = q.dir h

/-- Driving the lines of the active port is in the frame of every request that writes its data register. -/
theorem Pe.DrivenTo.peFrame {p : Params} {i : Instr} {q q' : Pe} (h : q.DrivenTo p q') (hi : writesData i = true) :
    PeFrame p i q q' where
  active _ := h.active
  data k hk := h.other k (hk.resolve_left (by simp [hi]))
  dir k _ := h.dir k

/-- `PE.PORTINIT` and bytes after it write the active port's two registers (R113, R140). -/
theorem peFrame_portInit {p : Params} {i : Instr} {q : Pe} {ts : List Txn} (hdata : writesData i = true)
    (hdir : writesDir p q.active i = some q.active) (hts : ts.all sendsByte = true) :
    PeFrame p i q (peTxns p (.portInit :: ts) q).1 := by
  have hbytes := drivenTo_peTxns (p := p) hts (peTxn p .portInit q).1
  refine ⟨fun _ => hbytes.active, fun h hh => ?_, fun h hh => ?_⟩
  · have hne : h ≠ q.active := hh.resolve_left (by simp [hdata])
    refine (hbytes.other h hne).trans ?_
    simp [peOps, PeOp.run, writeData_data, hne]
  · have hne : h ≠ q.active := by rintro rfl; exact hh hdir
    refine (hbytes.dir h).trans ?_
    simp [peOps, PeOp.run, writeDir_dir, hne]

/-- `PE.SELECT` writes `ACTIVE` and the direction register of the port it selects (R114). -/
theorem peFrame_select {p : Params} {i : Instr} {q : Pe} {h : Byte} (hactive : writesActive i = true)
    (hdir : writesDir p q.active i = some (handleOf p h)) : PeFrame p i q (peTxns p [.select h] q).1 := by
  refine ⟨fun hn => ?_, fun k _ => ?_, fun k hk => ?_⟩
  · rw [hactive] at hn; cases hn
  all_goals
    simp only [peTxns, peTxn_select]
    split
  · exact writeDir_data ..
  · rfl
  · have hne : k ≠ handleOf p h := by rintro rfl; exact hk hdir
    exact (writeDir_dir ..).trans (if_neg hne)
  · rfl

theorem peFrame_ctTxns (p : Params) (i : Instr) (c : Ct) (q : Pe) : PeFrame p i q (peTxns p (ctTxns p i c) q).1 := by
  cases i with
  | setcfg h | peSelect h => exact peFrame_select (h := h) rfl rfl
  | init | pePortinit => exact peFrame_portInit rfl rfl rfl
  | move r c' | putc ch | clear | home | number n | clrline c' | clrfrom x y | peCmd b | peData b =>
    exact (drivenTo_ctTxns (a := q.active) rfl c q).peFrame rfl

/-! ### The frame of the CT's registers (R28) -/

theorem ctAfter_eq (p : Params) (i : Instr) (c : Ct) : ctAfter p i c = c.after p (scriptOf p i c) := rfl

theorem ctAfter_col {i : Instr} (h : writesCol i = false) (p : Params) (c : Ct) : (ctAfter p i c).col = c.col := by
  cases i with
  | init | move r c' | putc ch | number n | clrline c' | clrfrom x y => cases h
  | setcfg k | clear | home | peCmd b | peData b | pePortinit | peSelect k => rfl

theorem ctAfter_saved {i : Instr} (h : writesSaved i = false) (p : Params) (c : Ct) :
    (ctAfter p i c).saved = c.saved := by
  cases i with
  | clrfrom x y => cases h
  | move r c' => rw [ctAfter_eq, scriptOf, after_move]
  | putc ch => rw [ctAfter_eq, scriptOf, after_putc]
  | number n => rw [ctAfter_eq, scriptOf, numberScript, andThen_after, after_putc, after_putc]
  | clrline c' => exact after_spaces_saved ..
  | init | setcfg k | clear | home | peCmd b | peData b | pePortinit | peSelect k => rfl

/-! ### The frame of the rest, and of the request -/

/-- Carrying a request out writes the units, the trace and `SEQ`, and nothing else. -/
theorem carryOut_rest (s : State) (f : Option Fault) (sc : Script) :
    (s.carryOut f sc).par = s.par ∧ (s.carryOut f sc).refusals = s.refusals ∧ (s.carryOut f sc).offers = s.offers ∧
      (s.carryOut f sc).resetReq = s.resetReq ∧ (s.carryOut f sc).resets = s.resets := by
  cases f with
  | some f => exact ⟨rfl, rfl, rfl, rfl, rfl⟩
  | none => simp

/-- Settles O53: of a request that is carried out the PE serves the transactions and the CT the updates, and each of them
writes the registers R28 says. -/
theorem registerAccessFrame : Obligations.RegisterAccessFrame := by
  intro i s t h
  obtain ⟨-, rfl⟩ | ⟨-, rfl⟩ := exec_next_cases h
  · obtain ⟨hpe, hct⟩ := carryOut_units s i
    have hframe := peFrame_ctTxns s.par i s.ct s.pe
    rw [← hpe] at hframe
    rw [hct]
    exact ⟨hframe.active, hframe.data, hframe.dir, fun hc => ctAfter_col hc _ _, fun hs => ctAfter_saved hs _ _,
      carryOut_rest s _ _⟩
  · exact ⟨fun _ => rfl, fun _ _ => rfl, fun _ _ => rfl, fun _ => rfl, fun _ => rfl, rfl, rfl, rfl, rfl, rfl⟩

/-! ### The reserved data bits (R23) -/

/-- A request that writes a data register and no direction register is one that sends bytes; every other but `INIT` and
`PE.PORTINIT` writes no data register. -/
theorem rsvOf_ctTxns {i : Instr} (hinit : i ≠ .init) (hport : i ≠ .pePortinit) (p : Params) (c : Ct) (q : Pe) (h : Nat) :
    rsvOf p ((peTxns p (ctTxns p i c) q).1.data h) = rsvOf p (q.data h) := by
  cases i with
  | init => exact absurd rfl hinit
  | pePortinit => exact absurd rfl hport
  | setcfg k | peSelect k => rw [(peFrame_ctTxns p _ c q).data h (.inl rfl)]
  | move r c' | putc ch | clear | home | number n | clrline c' | clrfrom x y | peCmd b | peData b =>
    exact (drivenTo_ctTxns (a := q.active) rfl c q).reserved h

/-- Settles O55: R100's micro-operations other than `ZERO` keep the reserved bits, and only the two requests named zero a
register. -/
theorem reservedDataBitsKept : Obligations.ReservedDataBitsKept := by
  intro i s t h hinit hport hexec
  have hkept : rsvOf s.par (t.pe.data h) = rsvOf s.par (s.pe.data h) := by
    obtain ⟨-, rfl⟩ | ⟨-, rfl⟩ := exec_next_cases hexec
    · rw [(carryOut_units s i).1, rsvOf_ctTxns hinit hport]
    · rfl
  refine ⟨hkept, fun hl => ?_⟩
  obtain ⟨-, -, -, hrsv, -⟩ := specLayout_masks hl
  rwa [rsvOf, rsvOf, hrsv] at hkept

end Sys2Proof.Machine
end

section
/-! The tracked column stays in [0, 16] (10_state R25), by the column each pseudocode leaves. -/

namespace Sys2Proof.Machine

/-- R7's parameters, as far as the column reads them: 16 columns, the wrap at 16, a column and operands of 8 bits. -/
theorem specGeometry_cols {p : Params} (h : p.specGeometry = true) : p.cols = 16 ∧ p.wrapCol = 16#8 := by
  obtain ⟨-, -, hcols, -, hwrap⟩ := (specGeometry_iff p).1 h
  exact ⟨hcols, hwrap⟩

/-- A character moves the column on by one, and from the wrap at 16 to 1 (R144). -/
theorem colAfterPutc_le {p : Params} (h : p.specGeometry = true) {c : Byte} (hc : c.toNat ≤ 16) :
    (colAfterPutc p c).toNat ≤ 16 := by
  rw [colAfterPutc, specWidths_colVal (specGeometry_specWidths h), (specGeometry_cols h).2]
  split
  · decide
  · next hne =>
    have hlt : c.toNat ≠ 16 := fun he => hne (BitVec.eq_of_toNat_eq he)
    rw [BitVec.toNat_add, BitVec.toNat_ofNat]
    omega

theorem colAfterPutcs_le {p : Params} (h : p.specGeometry = true) (k : Nat) {c : Byte} (hc : c.toNat ≤ 16) :
    (colAfterPutcs p k c).toNat ≤ 16 := by
  induction k generalizing c with
  | zero => exact hc
  | succ k ih => exact ih (colAfterPutc_le h hc)

theorem after_number_col (p : Params) (n : Byte) (c : Ct) :
    (c.after p (numberScript p n c)).col = colAfterPutc p (colAfterPutc p c.col) := by
  rw [numberScript, andThen_after, after_putc, after_putc]

theorem after_cascade_saved (p : Params) (x : Byte) (c : Ct) : (c.after p (cascadeScript p x c)).saved = c.saved := by
  unfold cascadeScript
  split
  · rw [andThen_after, clrlineScript, after_spaces_saved, after_move]
  · rfl

/-- `CLRFROM` ends with a move to the column it found (R153). -/
theorem after_clrfrom_col (p : Params) (x y : Byte) (c : Ct) :
    (c.after p (clrfromScript p x y c)).col = p.colVal c.col := by
  simp only [clrfromScript, andThen_after, restoreScript, after_move, after_cascade_saved, clrlineScript,
    after_spaces_saved]
  rfl

/-- The column after each request, its moves being in range: a move's, `CLRFROM`'s and `INIT`'s are set, the others count
characters on. -/
theorem ctAfter_col_le {p : Params} (hp : p.specGeometry = true) {i : Instr} {c : Ct} (hc : c.col.toNat ≤ 16)
    (hmove : outOfRangeMove p c.col i = false) : (ctAfter p i c).col.toNat ≤ 16 := by
  have hw := specGeometry_specWidths hp
  cases i with
  | setcfg k | clear | home | peCmd b | peData b | pePortinit | peSelect k => rwa [ctAfter_col rfl]
  | init => simp [ctAfter_eq, scriptOf, initScript, Ct.after, CtOp.run]
  | move r c' =>
    rw [ctAfter_eq, scriptOf, after_move]
    simp only [outOfRangeMove, (specGeometry_cols hp).1, Bool.or_eq_false_iff, decide_eq_false_iff_not] at hmove
    simp only [specWidths_operand hw, specWidths_colVal hw]
    omega
  | putc ch => rw [ctAfter_eq, scriptOf, after_putc]; exact colAfterPutc_le hp hc
  | number n => rw [ctAfter_eq, scriptOf, after_number_col]; exact colAfterPutc_le hp (colAfterPutc_le hp hc)
  | clrline c' => rw [ctAfter_eq, scriptOf, clrlineScript, after_spaces_col]; exact colAfterPutcs_le hp _ hc
  | clrfrom x y => rw [ctAfter_eq, scriptOf, after_clrfrom_col, specWidths_colVal hw]; exact hc

/-- Settles O59: the column after a request is the CT's, and each pseudocode keeps it in range. -/
theorem columnStaysUpToSixteen : Obligations.ColumnStaysUpToSixteen := by
  intro i s t hp hc hmove h
  obtain ⟨-, rfl⟩ | ⟨-, rfl⟩ := exec_next_cases h
  · rw [(carryOut_units s i).2]
    exact ctAfter_col_le hp hc hmove
  · exact hc

end Sys2Proof.Machine
end

section
/-! The state right after reset (10_state R34, 70_reset_and_hazards R230): the values the spec gives, and that it is well
formed whatever the OPEN parameters and the draws of U3 and U5 are. -/

namespace Sys2Proof.Machine

theorem isHandle_reset : resetParams.isHandle resetParams.initialHandle = true :=
  (isHandle_iff_lt _ _).2 Config.initialHandle.isLt

theorem openFCpuHz_pos : 0 < openFCpuHz := by unfold openFCpuHz; positivity

theorem openTPowerOnNs_nonneg : 0 ≤ openTPowerOnNs := by unfold openTPowerOnNs; positivity

theorem wf_resetParams : resetParams.wf = true := by
  have hwidths : resetParams.widthsOk = true := rfl
  have hlayout : resetParams.layoutOk = true := rfl
  have hclock : 0 < resetParams.fCpuHz := openFCpuHz_pos
  have hpower : 0 ≤ resetParams.tPowerOnNs := openTPowerOnNs_nonneg
  simp [Params.wf, isHandle_reset, hwidths, hlayout, hclock, hpower]

/-- Settles O15: every value is the one written in the reset state, and the OPEN handle is a member by its type. -/
theorem resetValues : Obligations.ResetValues :=
  ⟨rfl, rfl, rfl, rfl, rfl, isHandle_reset, rfl, rfl, rfl, rfl, rfl, rfl, rfl, rfl, rfl, rfl, rfl, rfl, rfl, rfl, rfl, rfl,
    rfl, rfl, rfl, rfl, rfl, rfl, rfl, rfl, rfl, rfl⟩

/-- No register is listed yet, and one of 8 bits draws a value of its width (log 4, log 33). -/
theorem portsOk_reset : PortsOk resetParams [] where
  canonical := rfl
  members := rfl
  width := (portsInWidth_iff _ _).2 fun _ _ => specLayout_portVal (p := resetParams) rfl _

/-- Settles O49: the parameters are R7's or OPEN ones that meet what R7 asks, and no register has been written. -/
theorem resetIsWellFormed : Obligations.ResetIsWellFormed :=
  have hct : State.reset.ct.inWidth resetParams = true := (inWidth_iff _ _).2 ⟨colVal_zero _, colVal_colVal _ _⟩
  (wf_iff_of_idle rfl).2 ⟨wf_resetParams, ⟨isHandle_reset, portsOk_reset⟩, hct⟩

end Sys2Proof.Machine
end

section
/-! The memories of 20_memory: the port registers (R50, R54) and the display addresses (R51). -/

namespace Sys2Proof.Machine

/-- Settles O17: `DATA` and `DIR` are distinct cells of every port, and a write changes the cell it names only. -/
theorem portRegistersAreLatches : Obligations.PortRegistersAreLatches := fun p h k v =>
  ⟨writeData_data p h k v, writeData_dir p h k v, writeDir_dir p h k v, writeDir_data p h k v⟩

/-- R51's formula, over the naturals. -/
theorem toNat_ddramAddr (p : Params) (row col : Byte) :
    (ddramAddr p row col).toNat = ((row.toNat <<< p.rowShift) ||| col.toNat) % 256 := by
  have hcol : col.toNat % 2 ^ 8 = col.toNat := Nat.mod_eq_of_lt col.isLt
  rw [show (256 : Nat) = 2 ^ 8 from rfl, Nat.or_mod_two_pow, hcol, ddramAddr, BitVec.toNat_or, BitVec.toNat_shiftLeft]

/-- A column of R7's 16 lies below bit 6, where the row is, so that `|` adds them; the sum fits a byte. -/
theorem toNat_ddramAddr_inRange {p : Params} {row col : Byte} (hp : p.specGeometry = true) (hrow : row.toNat < 2)
    (hcol : col.toNat < 16) : (ddramAddr p row col).toNat = 0x40 * row.toNat + col.toNat := by
  obtain ⟨-, -, -, hshift, -⟩ := (specGeometry_iff p).1 hp
  have hbelow : col.toNat < 2 ^ 6 := by omega
  rw [toNat_ddramAddr, hshift, ← Nat.shiftLeft_add_eq_or_of_lt hbelow, Nat.shiftLeft_eq]
  omega

/-- Settles O42: R51's formula at every parameter, and its values in R7's geometry. -/
theorem displayAddresses : Obligations.DisplayAddresses := fun p row col =>
  ⟨by rw [← toNat_ddramAddr, BitVec.ofNat_toNat, BitVec.setWidth_eq], toNat_ddramAddr_inRange⟩

end Sys2Proof.Machine
end

section
/-! The request words (30_encoding R80 to R86, R90 to R92): the decoder's verdict on every word, from which both directions of
the round trip, the lists of reserved words and the reading of the opcode table follow. -/

namespace Sys2Proof

/-! ### The word of a request -/

/-- Settles O1: the fields of a request's word are its opcode and its operands, and the unused ones are 0. -/
theorem decodeOfEncodeIsTheRequest : Obligations.DecodeOfEncodeIsTheRequest := by
  intro i
  cases i with
  | init | setcfg h | move r c | putc ch | clear | home | number n | clrline c | clrfrom x y =>
    simp [encode, decode, decodeHost, mustBeZero]
  | peCmd b | peData b | pePortinit | peSelect h => simp [encode, decode, decodePe]

theorem encode_injective {i j : Instr} (h : encode i = encode j) : i = j := by
  have hij : (Except.ok i : Except Reject Instr) = .ok j := by
    rw [← decodeOfEncodeIsTheRequest i, h, decodeOfEncodeIsTheRequest j]
  injection hij

/-- A transaction's word is the word of the request it is to the PE alone (R91, R93). -/
theorem encode_toInstr (t : Txn) : encode t.toInstr = .pe t.word := by
  cases t <;> rfl

/-- Settles O6: each word of R85 is, bit for bit, the word of the request beside it. -/
theorem workedEncodings : Obligations.WorkedEncodings :=
  have roundTrip := decodeOfEncodeIsTheRequest
  ⟨roundTrip .init, roundTrip (.setcfg 1#8), roundTrip (.move 1#8 5#8), roundTrip (.putc 0x41#8), roundTrip .clear,
    roundTrip .home, roundTrip (.number 7#8), roundTrip (.clrline 3#8), roundTrip (.clrfrom 0#8 4#8),
    roundTrip (.peCmd 0x28#8), roundTrip (.peData 0x28#8), roundTrip .pePortinit, roundTrip (.peSelect 1#8)⟩

/-! ### Reserved words -/

/-- R83's list: an opcode of no request, or a nonzero field that the opcode's request does not use. -/
def HostReserved (w : BitVec 24) : Prop :=
  hostOpc w = 0x00#8 ∨ 0x0A ≤ (hostOpc w).toNat ∨
    ((hostOpc w = 0x01#8 ∨ hostOpc w = 0x05#8 ∨ hostOpc w = 0x06#8) ∧ (hostA w ≠ 0#8 ∨ hostB w ≠ 0#8)) ∨
    ((hostOpc w = 0x02#8 ∨ hostOpc w = 0x04#8 ∨ hostOpc w = 0x07#8 ∨ hostOpc w = 0x08#8) ∧ hostB w ≠ 0#8)

/-- R92's list: a kind of no transaction, or `PE.PORTINIT` with an operand. -/
def PeReserved (w : BitVec 12) : Prop :=
  0x4 ≤ (peKind w).toNat ∨ (peKind w = 0x2#4 ∧ peOpd w ≠ 0#8)

theorem not_hostReserved_of_encode {i : Instr} {w : BitVec 24} (h : encode i = .host w) : ¬ HostReserved w := by
  cases i with
  | init | setcfg h | move r c | putc ch | clear | home | number n | clrline c | clrfrom x y =>
    cases h
    simp [HostReserved]
  | peCmd b | peData b | pePortinit | peSelect h => cases h

theorem not_peReserved_of_encode {i : Instr} {w : BitVec 12} (h : encode i = .pe w) : ¬ PeReserved w := by
  cases i with
  | init | setcfg h | move r c | putc ch | clear | home | number n | clrline c | clrfrom x y => cases h
  | peCmd b | peData b | pePortinit | peSelect h =>
    cases h
    simp [PeReserved]

/-- `d` is the right verdict on a host word: the request whose word it is, or the refusal of a reserved word. -/
def HostVerdict (w : BitVec 24) (d : Except Reject Instr) : Prop :=
  (∃ i, d = .ok i ∧ encode i = .host w) ∨ (d = .error (.reservedRequest w) ∧ HostReserved w)

/-- `d` is the right verdict on a transaction word. -/
def PeVerdict (w : BitVec 12) (d : Except Reject Instr) : Prop :=
  (∃ i, d = .ok i ∧ encode i = .pe w) ∨ (d = .error (.reservedPE w) ∧ PeReserved w)

theorem hostVerdict_mustBeZero {unused : Bool} {w : BitVec 24} {i : Instr} (hok : unused = true → encode i = .host w)
    (hres : unused = false → HostReserved w) : HostVerdict w (mustBeZero unused w i) := by
  cases unused with
  | true => exact .inl ⟨i, rfl, hok rfl⟩
  | false => exact .inr ⟨rfl, hres rfl⟩

/-- Decoding follows R81's map: two opcodes use both fields, the others leave one or two that must be 0 (R83). -/
theorem hostVerdict_decodeHost (w : BitVec 24) : HostVerdict w (decodeHost w) := by
  rw [← hostWord_fields w]
  generalize hostOpc w = o, hostA w = a, hostB w = b
  simp only [decodeHost, hostOpc_hostWord, hostA_hostWord, hostB_hostWord]
  split
  case h_3 | h_9 => exact .inl ⟨_, rfl, rfl⟩
  case h_10 =>
    have hopc : o = 0x00#8 ∨ 0x0A ≤ o.toNat := by simp only [imp_false] at *; bv_omega
    exact .inr ⟨rfl, by simpa only [HostReserved, hostOpc_hostWord, ← or_assoc] using .inl (.inl hopc)⟩
  all_goals
    refine hostVerdict_mustBeZero (fun hzero => ?_) (fun hzero => ?_)
    · simp_all [encode]
    · simp_all [HostReserved, imp_iff_not_or]

/-- Decoding follows R91's map (R92). -/
theorem peVerdict_decodePe (w : BitVec 12) : PeVerdict w (decodePe w) := by
  rw [← peWord_fields w]
  generalize peKind w = k, peOpd w = b
  simp only [decodePe, peKind_peWord, peOpd_peWord]
  split
  case h_3 =>
    cases hzero : b == 0#8 with
    | true => exact .inl ⟨_, rfl, by simp_all [encode]⟩
    | false => exact .inr ⟨rfl, by simp_all [PeReserved]⟩
  case h_5 =>
    have hkind : 0x4 ≤ k.toNat := by simp only [imp_false] at *; bv_omega
    exact .inr ⟨rfl, .inl (by rwa [peKind_peWord])⟩
  all_goals exact .inl ⟨_, rfl, rfl⟩

/-- Settles O3: the decoder's verdict on a word is the only one, since the word of a request is not on R83's list. -/
theorem reservedHostWordsAreRejected : Obligations.ReservedHostWordsAreRejected := by
  intro w
  obtain ⟨i, hd, hw⟩ | ⟨hd, hres⟩ := hostVerdict_decodeHost w
  · have hnot : ¬ HostReserved w := not_hostReserved_of_encode hw
    rw [hd]
    exact ⟨⟨nofun, fun hres => absurd hres hnot⟩, nofun⟩
  · rw [hd]
    exact ⟨⟨fun _ => hres, fun _ => rfl⟩, fun r hr => by injection hr with hr; exact hr.symm⟩

/-- Settles O4: the same for R92's list; the word the CT issues for a transaction is the word of a request. -/
theorem reservedPeWordsAreRejected : Obligations.ReservedPeWordsAreRejected := by
  intro w
  have htxn (t : Txn) : decodePe t.word = .ok t.toInstr := by
    have hdecode := decodeOfEncodeIsTheRequest t.toInstr
    rwa [encode_toInstr] at hdecode
  obtain ⟨i, hd, hw⟩ | ⟨hd, hres⟩ := peVerdict_decodePe w
  · have hnot : ¬ PeReserved w := not_peReserved_of_encode hw
    rw [hd]
    exact ⟨⟨nofun, fun hres => absurd hres hnot⟩, nofun, htxn⟩
  · rw [hd]
    exact ⟨⟨fun _ => hres, fun _ => rfl⟩, fun r hr => by injection hr with hr; exact hr.symm, htxn⟩

/-! ### The other direction -/

/-- Settles O2: a word that decodes got the verdict of a request's word. -/
theorem decodedWordIsTheEncodedWord : Obligations.DecodedWordIsTheEncodedWord := by
  intro w i hd
  cases w with
  | host w =>
    obtain ⟨j, hj, hw⟩ | ⟨hr, -⟩ := hostVerdict_decodeHost w
    · cases hj.symm.trans hd; exact hw
    · cases hr.symm.trans hd
  | pe w =>
    obtain ⟨j, hj, hw⟩ | ⟨hr, -⟩ := peVerdict_decodePe w
    · cases hj.symm.trans hd; exact hw
    · cases hr.symm.trans hd

/-! ### The opcode table (R84) -/

theorem byte_and_ones (v : Byte) : v &&& 0xFF#8 = v := BitVec.and_allOnes

theorem nibble_and_ones (v : BitVec 4) : v &&& 0xF#4 = v := BitVec.and_allOnes

/-- A host word that matches a row has the row's opcode, and 0 in each field that the row's mask holds: one lemma for each of
the table's masks. -/
theorem host_row_no_operand {mn : String} {p : Nat} {o : Byte} {w : BitVec 24}
    (hp : BitVec.ofNat 24 p = hostWord o 0#8 0#8)
    (h : TableRow.matchesWord ⟨mn, .host24, p, 0xFFFFFF⟩ (.host w) = true) : hostWord o 0#8 0#8 = w := by
  have hfields := host_mask_test w (m := 0xFFFFFF) (mo := 0xFF#8) (ma := 0xFF#8) (mb := 0xFF#8) rfl hp
  rw [← hostWord_fields w, hostWord_inj]
  simp_all [TableRow.matchesWord, byte_and_ones]

theorem host_row_one_operand {mn : String} {p : Nat} {o : Byte} {w : BitVec 24}
    (hp : BitVec.ofNat 24 p = hostWord o 0#8 0#8)
    (h : TableRow.matchesWord ⟨mn, .host24, p, 0xFF00FF⟩ (.host w) = true) : hostWord o (hostA w) 0#8 = w := by
  have hfields := host_mask_test w (m := 0xFF00FF) (mo := 0xFF#8) (ma := 0x00#8) (mb := 0xFF#8) rfl hp
  rw [← hostWord_fields w, hostWord_inj]
  simp_all [TableRow.matchesWord, byte_and_ones]

theorem host_row_two_operands {mn : String} {p : Nat} {o : Byte} {w : BitVec 24}
    (hp : BitVec.ofNat 24 p = hostWord o 0#8 0#8)
    (h : TableRow.matchesWord ⟨mn, .host24, p, 0xFF0000⟩ (.host w) = true) : hostWord o (hostA w) (hostB w) = w := by
  have hfields := host_mask_test w (m := 0xFF0000) (mo := 0xFF#8) (ma := 0x00#8) (mb := 0x00#8) rfl hp
  rw [← hostWord_fields w, hostWord_inj]
  simp_all [TableRow.matchesWord, byte_and_ones]

/-- The same of a transaction word. -/
theorem pe_row_no_operand {mn : String} {p : Nat} {k : BitVec 4} {w : BitVec 12}
    (hp : BitVec.ofNat 12 p = peWord k 0#8)
    (h : TableRow.matchesWord ⟨mn, .pe12, p, 0xFFF⟩ (.pe w) = true) : peWord k 0#8 = w := by
  have hfields := pe_mask_test w (m := 0xFFF) (mk := 0xF#4) (mo := 0xFF#8) rfl hp
  rw [← peWord_fields w, peWord_inj]
  simp_all [TableRow.matchesWord, byte_and_ones, nibble_and_ones]

theorem pe_row_one_operand {mn : String} {p : Nat} {k : BitVec 4} {w : BitVec 12}
    (hp : BitVec.ofNat 12 p = peWord k 0#8)
    (h : TableRow.matchesWord ⟨mn, .pe12, p, 0xF00⟩ (.pe w) = true) : peWord k (peOpd w) = w := by
  have hfields := pe_mask_test w (m := 0xF00) (mk := 0xF#4) (mo := 0x00#8) rfl hp
  rw [← peWord_fields w, peWord_inj]
  simp_all [TableRow.matchesWord, nibble_and_ones]

/-- A word that matches a row of the table is the word of a request with the row's mnemonic. -/
theorem exists_encode_of_matchesWord {row : TableRow} (hrow : row ∈ opcodeTable) {w : CodeWord}
    (h : row.matchesWord w = true) : ∃ i, encode i = w ∧ row.mnemonic = i.mnemonic := by
  simp only [opcodeTable, List.mem_cons, List.not_mem_nil, or_false] at hrow
  cases w with
  | host w =>
    obtain rfl | rfl | rfl | rfl | rfl | rfl | rfl | rfl | rfl | rfl | rfl | rfl | rfl := hrow
    · exact ⟨.init, congrArg CodeWord.host (host_row_no_operand rfl h), rfl⟩
    · exact ⟨.setcfg (hostA w), congrArg CodeWord.host (host_row_one_operand rfl h), rfl⟩
    · exact ⟨.move (hostA w) (hostB w), congrArg CodeWord.host (host_row_two_operands rfl h), rfl⟩
    · exact ⟨.putc (hostA w), congrArg CodeWord.host (host_row_one_operand rfl h), rfl⟩
    · exact ⟨.clear, congrArg CodeWord.host (host_row_no_operand rfl h), rfl⟩
    · exact ⟨.home, congrArg CodeWord.host (host_row_no_operand rfl h), rfl⟩
    · exact ⟨.number (hostA w), congrArg CodeWord.host (host_row_one_operand rfl h), rfl⟩
    · exact ⟨.clrline (hostA w), congrArg CodeWord.host (host_row_one_operand rfl h), rfl⟩
    · exact ⟨.clrfrom (hostA w) (hostB w), congrArg CodeWord.host (host_row_two_operands rfl h), rfl⟩
    all_goals cases h
  | pe w =>
    obtain rfl | rfl | rfl | rfl | rfl | rfl | rfl | rfl | rfl | rfl | rfl | rfl | rfl := hrow
    iterate 9 · cases h
    · exact ⟨.peCmd (peOpd w), congrArg CodeWord.pe (pe_row_one_operand rfl h), rfl⟩
    · exact ⟨.peData (peOpd w), congrArg CodeWord.pe (pe_row_one_operand rfl h), rfl⟩
    · exact ⟨.pePortinit, congrArg CodeWord.pe (pe_row_no_operand rfl h), rfl⟩
    · exact ⟨.peSelect (peOpd w), congrArg CodeWord.pe (pe_row_one_operand rfl h), rfl⟩

/-- Every request's word matches the row of its mnemonic. -/
theorem rowMatch (i : Instr) : Laws.RowMatch.Statement i :=
  match i with
  | .init => Laws.RowMatch.init
  | .setcfg h => Laws.RowMatch.setcfg h
  | .move r c => Laws.RowMatch.move r c
  | .putc ch => Laws.RowMatch.putc ch
  | .clear => Laws.RowMatch.clear
  | .home => Laws.RowMatch.home
  | .number n => Laws.RowMatch.number n
  | .clrline c => Laws.RowMatch.clrline c
  | .clrfrom x y => Laws.RowMatch.clrfrom x y
  | .peCmd b => Laws.RowMatch.peCmd b
  | .peData b => Laws.RowMatch.peData b
  | .pePortinit => Laws.RowMatch.pePortinit
  | .peSelect h => Laws.RowMatch.peSelect h

theorem nodup_mnemonics : (opcodeTable.map (·.mnemonic)).Nodup := by decide

/-- A request's word matches the row of its mnemonic and no other. -/
theorem matchesWord_encode_iff {row : TableRow} (hrow : row ∈ opcodeTable) (i : Instr) :
    row.matchesWord (encode i) = true ↔ row.mnemonic = i.mnemonic := by
  constructor
  · intro h
    obtain ⟨j, hj, hmn⟩ := exists_encode_of_matchesWord hrow h
    rwa [encode_injective hj] at hmn
  · intro h
    obtain ⟨q, hq, hqmn, hmatch⟩ := rowMatch i
    rwa [List.inj_on_of_nodup_map nodup_mnemonics hrow hq (h.trans hqmn.symm)]

/-- The table has exactly one row with the mnemonic of a request. -/
theorem filter_mnemonics_eq (i : Instr) : (opcodeTable.map (·.mnemonic)).filter (· == i.mnemonic) = [i.mnemonic] := by
  obtain ⟨row, hrow, hmn, -⟩ := rowMatch i
  have hmem : i.mnemonic ∈ opcodeTable.map (·.mnemonic) := hmn ▸ List.mem_map_of_mem hrow
  rw [List.filter_beq, List.count_eq_one_of_mem nodup_mnemonics hmem, List.replicate_one]

theorem filter_matchesWord_encode (i : Instr) :
    (opcodeTable.filter fun row => row.matchesWord (encode i)).map (·.mnemonic) = [i.mnemonic] := by
  have hcongr : opcodeTable.filter (fun row => row.matchesWord (encode i)) =
      opcodeTable.filter ((· == i.mnemonic) ∘ (·.mnemonic)) :=
    List.filter_congr fun row hrow => Bool.eq_iff_iff.2 ((matchesWord_encode_iff hrow i).trans beq_iff_eq.symm)
  rw [hcongr, ← List.filter_map, filter_mnemonics_eq]

/-- Settles O5: a word that decodes is the word of a request, and a row that a word matches makes it one. -/
theorem opcodeTableDecidesDecoding : Obligations.OpcodeTableDecidesDecoding := by
  intro w
  cases hd : decode w with
  | ok i =>
    refine .inl ⟨i, rfl, ?_⟩
    rw [← decodedWordIsTheEncodedWord w i hd, filter_matchesWord_encode]
  | error r =>
    refine .inr ⟨r, rfl, List.filter_eq_nil_iff.2 fun row hrow hmatch => ?_⟩
    obtain ⟨i, rfl, -⟩ := exists_encode_of_matchesWord hrow hmatch
    rw [decodeOfEncodeIsTheRequest] at hd
    cases hd

end Sys2Proof
end

section
/-! What the LCDs see of a request (30_encoding R73 to R75): the bytes of the transactions that send one, and that only the
active port's LCD sees anything. -/

namespace Sys2Proof.Machine

/-! ### The bus bytes of a transaction (R75, R111, R112) -/

/-- The two nibbles of a byte, on the data lines (R103). -/
theorem hiOf_lines (b : Byte) : hiOf b &&& 0x0F#8 = 0#8 ∧ (hiOf b).extractLsb' 4 4 = b.extractLsb' 4 4 := by
  revert b; decide

theorem loOf_lines (b : Byte) : loOf b &&& 0x0F#8 = 0#8 ∧ (loOf b).extractLsb' 4 4 = b.extractLsb' 0 4 := by
  revert b; decide

/-- A port byte with a nibble `v` on the data lines and `l` on the others shows RS as it is in `l`, and E at 0. -/
theorem fields_or {p : Params} (hp : p.specLayout = true) {v l : Byte} (hv : v &&& 0x0F#8 = 0#8) (hl : l &&& 0xF1#8 = 0#8) :
    eOf p (v ||| l) = false ∧ rsOf p (v ||| l) = l.getLsbD 1 ∧ dbOf p (v ||| l) = v.extractLsb' 4 4 := by
  have hvbits : ∀ v : Byte, v &&& 0x0F#8 = 0#8 → v.getLsbD 0 = false ∧ v.getLsbD 1 = false := by decide
  have hlbits : ∀ l : Byte, l &&& 0xF1#8 = 0#8 → l.getLsbD 0 = false ∧ l.extractLsb' 4 4 = 0#4 := by decide
  obtain ⟨he, hr, hn, -⟩ := specLayout_fields hp (v ||| l)
  obtain ⟨hv0, hv1⟩ := hvbits v hv
  obtain ⟨hl0, hl4⟩ := hlbits l hl
  rw [he, hr, hn, BitVec.getLsbD_or, BitVec.getLsbD_or, BitVec.extractLsb'_or, hv0, hv1, hl0, hl4]
  simp

/-- A write that raises E, or keeps it as it is, latches nothing (R73). -/
theorem latchOf_of_eOf {p : Params} {prev v : Byte} (h : eOf p prev = true → eOf p v = true) : latchOf p prev v = [] := by
  unfold latchOf fallingEdge
  cases hprev : eOf p prev with
  | false => rfl
  | true => rw [h hprev]; rfl

/-- Setting E latches nothing. -/
theorem latchOf_eHi {p : Params} (hp : p.specLayout = true) (prev v : Byte) : latchOf p prev (v ||| 0x01#8) = [] :=
  latchOf_of_eOf fun _ => by rw [(specLayout_fields hp _).1]; simp

/-- Clearing E with a nibble on the data lines latches the nibble, under the RS level of the other lines. -/
theorem latchOf_eLo {p : Params} (hp : p.specLayout = true) {v l : Byte} (hv : v &&& 0x0F#8 = 0#8) (hl : l &&& 0xF1#8 = 0#8) :
    latchOf p (v ||| l ||| 0x01#8) (v ||| l) = [⟨l.getLsbD 1, v.extractLsb' 4 4⟩] := by
  have he : eOf p (v ||| l ||| 0x01#8) = true := by rw [(specLayout_fields hp _).1]; simp
  obtain ⟨he', hr, hn⟩ := fields_or hp hv hl
  simp [latchOf, fallingEdge, he, he', hr, hn]

theorem latches_dataEvents {p : Params} (hp : p.specLayout = true) (a : Nat) (d b : Byte) :
    latches p a d (dataEvents a d b) = [⟨d.getLsbD 1, b.extractLsb' 4 4⟩, ⟨d.getLsbD 1, b.extractLsb' 0 4⟩] := by
  have hkept : ∀ d : Byte, (d &&& 0x0E#8) &&& 0xF1#8 = 0#8 ∧ (d &&& 0x0E#8).getLsbD 1 = d.getLsbD 1 := by decide
  obtain ⟨hd, hrs⟩ := hkept d
  obtain ⟨hhi, hhin⟩ := hiOf_lines b
  obtain ⟨hlo, hlon⟩ := loOf_lines b
  simp only [dataEvents, latches, if_true, latchOf_eHi hp, latchOf_eLo hp hhi hd, latchOf_eLo hp hlo hd, hrs, hhin, hlon]
  rfl

theorem latches_cmdEvents {p : Params} (hp : p.specLayout = true) (a : Nat) (d b : Byte) :
    latches p a d (cmdEvents a d b) = [⟨false, b.extractLsb' 4 4⟩, ⟨false, b.extractLsb' 0 4⟩] := by
  have hkept : ∀ d : Byte, (d &&& 0x0C#8) &&& 0xF1#8 = 0#8 ∧ (d &&& 0x0C#8).getLsbD 1 = false := by decide
  obtain ⟨hd, hrs⟩ := hkept d
  obtain ⟨hhi, hhin⟩ := hiOf_lines b
  obtain ⟨hlo, hlon⟩ := loOf_lines b
  have hrsLo : latchOf p d (d &&& 0xFD#8) = [] :=
    latchOf_of_eOf fun he => by rw [(specLayout_fields hp _).1] at he ⊢; simp [he]
  have hrsHi (v : Byte) : latchOf p (loOf b ||| (d &&& 0x0C#8)) v = [] :=
    latchOf_of_eOf fun he => by rw [(fields_or hp hlo hd).1] at he; cases he
  simp only [cmdEvents, latches, if_true, latchOf_eHi hp, latchOf_eLo hp hhi hd, latchOf_eLo hp hlo hd, hrs, hhin, hlon, hrsLo,
    hrsHi]
  rfl

/-- Two nibbles latched under one RS level make the byte they are of (R75). -/
theorem pairUp_nibbles (rs : Bool) (b : Byte) :
    pairUp [⟨rs, b.extractLsb' 4 4⟩, ⟨rs, b.extractLsb' 0 4⟩] = [⟨rs, b, false⟩] := by
  have hjoin : ∀ b : Byte, (b.extractLsb' 4 4 ++ b.extractLsb' 0 4 : BitVec 8) = b := by decide
  simp [pairUp, pairLatches, hjoin]

/-- Settles O26: R111's and R112's events latch the byte's two nibbles, `RSLO` and `RSHI` nothing. -/
theorem transactionBusBytes : Obligations.TransactionBusBytes := by
  intro p b q hp
  rw [peTxn_cmd, peTxn_data, sendCmd_run hp, sendByte_run hp, busBytes, busBytes, latches_cmdEvents hp,
    latches_dataEvents hp, pairUp_nibbles, pairUp_nibbles]
  exact ⟨rfl, rfl⟩

/-! ### The ports that are not active (R74) -/

/-- Events that write no data of a port show its LCD nothing. -/
theorem latches_of_no_write {p : Params} {h : Nat} {evs : List Event} (hevs : ∀ v, Event.wrData h v ∉ evs) (prev : Byte) :
    latches p h prev evs = [] := by
  induction evs with
  | nil => rfl
  | cons e rest ih =>
    have hrest := ih fun v hv => hevs v (List.mem_cons_of_mem _ hv)
    cases e with
    | wrDir k v | wait k => exact hrest
    | wrData k v =>
      have hk : k ≠ h := by rintro rfl; exact hevs v List.mem_cons_self
      rw [latches, if_neg hk, hrest]

theorem wrData_mem_run {p : Params} {op : PeOp} {q : Pe} {k : Nat} {v : Byte} (h : .wrData k v ∈ (op.run p q).2) :
    k = q.active := by
  cases op with
  | eHi | eLo | rsHi | rsLo | put w | zero =>
    obtain ⟨hk, -⟩ : k = q.active ∧ v = _ := by simpa [PeOp.run] using h
    exact hk
  | dirCfg j | setAct j | wait j => simp [PeOp.run] at h

theorem noSetAct_cons {op : PeOp} {rest : List PeOp} (h : noSetAct (op :: rest) = true) :
    noSetAct [op] = true ∧ noSetAct rest = true := by
  cases op with
  | setAct k => cases h
  | eHi | eLo | rsHi | rsLo | put v | zero | dirCfg k | wait k => exact ⟨rfl, h⟩

/-- While `ACTIVE` stays, the PE writes the data of the active port only. -/
theorem wrData_mem_peOps {p : Params} {ops : List PeOp} {q : Pe} (hops : noSetAct ops = true) {k : Nat} {v : Byte}
    (h : .wrData k v ∈ (peOps p ops q).2) : k = q.active := by
  induction ops generalizing q with
  | nil => cases h
  | cons op rest ih =>
    obtain ⟨hop, hrest⟩ := noSetAct_cons hops
    obtain hnow | hlater := List.mem_append.1 h
    · exact wrData_mem_run hnow
    · exact (ih hrest hlater).trans (peOps_active p [op] q hop)

theorem noSelect_txn_cons {t : Txn} {rest : List CtStep} (h : noSelect (.txn t :: rest) = true) :
    (∀ j, t ≠ .select j) ∧ noSelect rest = true := by
  cases t with
  | select j => cases h
  | cmd b | data b | portInit => exact ⟨nofun, h⟩

theorem wrData_mem_peTxns {p : Params} {steps : List CtStep} {q : Pe} (hsteps : noSelect steps = true) {k : Nat} {v : Byte}
    (h : .wrData k v ∈ (peTxns p (txnsOf steps) q).2) : k = q.active := by
  induction steps generalizing q with
  | nil => cases h
  | cons step rest ih =>
    cases step with
    | upd op => exact ih hsteps h
    | txn t =>
      obtain ⟨ht, hrest⟩ := noSelect_txn_cons hsteps
      have hops := noSetAct_txnOps p t q.active ht
      obtain hnow | hlater := List.mem_append.1 h
      · rw [peTxn_none (faultOf_toInstr p t ht)] at hnow
        exact wrData_mem_peOps hops hnow
      · refine (ih hrest hlater).trans ?_
        rw [peTxn_none (faultOf_toInstr p t ht), peOps_active p _ q hops]

/-- `PE.SELECT` writes no data (R114). -/
theorem wrData_not_mem_select (p : Params) (h : Byte) (q : Pe) (k : Nat) (v : Byte) :
    .wrData k v ∉ (peTxns p [.select h] q).2 := by
  simp only [peTxns, peTxn_select]
  split <;> simp [peOps, PeOp.run]

/-- A request writes the data of no port but the one active on entry (R28). -/
theorem wrData_mem_ctTxns {p : Params} {i : Instr} {c : Ct} {q : Pe} {k : Nat} {v : Byte}
    (h : .wrData k v ∈ (peTxns p (ctTxns p i c) q).2) : k = q.active := by
  cases hi : writesActive i with
  | false => exact wrData_mem_peTxns (noSelect_scriptOf p i c hi) h
  | true =>
    cases i with
    | setcfg j | peSelect j => exact absurd h (wrData_not_mem_select p j q k v)
    | _ => cases hi

theorem carryOut_select_trace (s : State) (h : Byte) :
    (s.carryOut (selectFault s.par h) (.txn (.select h))).trace = s.trace ++ (peTxns s.par [.select h] s.pe).2 := by
  cases hf : selectFault s.par h with
  | some f => simp [peTxns, peTxn_some (t := .select h) hf]
  | none =>
    rw [carryOut_none, State.expand, Script.txn, List.flatMap_singleton, CtStep.micro, runMicro_map_pe, peTxns, peTxns,
      peTxn_none (t := .select h) hf, List.append_nil]

/-- Only a request that writes `ACTIVE` can fault (R204). -/
theorem faultOf_eq_none (p : Params) {i : Instr} (h : writesActive i = false) : faultOf p i = none := by
  cases i with
  | setcfg k | peSelect k => cases h
  | _ => rfl

/-- The events of a request that is carried out are the PE's (R155). -/
theorem carryOut_trace (s : State) (i : Instr) :
    (s.carryOut (faultOf s.par i) (scriptOf s.par i)).trace = s.trace ++ (peTxns s.par (ctTxns s.par i s.ct) s.pe).2 := by
  cases hi : writesActive i with
  | true =>
    cases i with
    | setcfg h | peSelect h => exact carryOut_select_trace s h
    | _ => cases hi
  | false =>
    rw [faultOf_eq_none s.par hi, carryOut_none, State.expand, runMicro_steps _ _ (noSelect_scriptOf s.par i s.ct hi)]
    rfl

/-- Settles O54: a request writes the data of the active port only, so that another port's lines are kept and its LCD sees no
write. -/
theorem otherPortsSeeNothing : Obligations.OtherPortsSeeNothing := by
  intro i s t h prev hidle hexec hne
  obtain ⟨-, hdata, -⟩ := registerAccessFrame i s t hexec
  have htrace : t.trace = s.trace ++ (peTxns s.par (ctTxns s.par i s.ct) s.pe).2 := by
    rw [exec_idle hidle] at hexec
    injection hexec with ht
    rw [← ht, carryOut_trace]
  have hquiet (v : Byte) : Event.wrData h v ∉ (peTxns s.par (ctTxns s.par i s.ct) s.pe).2 :=
    fun hv => hne (wrData_mem_ctTxns hv)
  exact ⟨hdata h (.inr hne), _, htrace, latches_of_no_write hquiet prev⟩

end Sys2Proof.Machine
end

section
/-! The instruction bytes of a request (41_cursor_tracker R156, 30_encoding R76), and what an HD44780 takes an address command
for (R99, 92_conflicts R243). -/

namespace Sys2Proof.Machine

/-! ### The commands of a request (R76) -/

/-- A `PUTC` commands the wrap's move only (R144). -/
theorem cmd_mem_putTxns {p : Params} {col ch b : Byte} (h : .cmd b ∈ putTxns p col ch) : b = addrCmd p 1#8 0#8 := by
  unfold putTxns at h
  split at h
  · simpa [addrTxn] using h
  · simp at h

theorem cmd_mem_spacesTxns {p : Params} {k : Nat} {col b : Byte} (h : .cmd b ∈ spacesTxns p k col) :
    b = addrCmd p 1#8 0#8 := by
  induction k generalizing col with
  | zero => cases h
  | succ k ih =>
    obtain hput | hrest := List.mem_append.1 h
    · exact cmd_mem_putTxns hput
    · exact ih hrest

theorem cmd_mem_move {p : Params} {r k b : Byte} {c : Ct} (h : .cmd b ∈ txnsOf (moveScript p r k c)) : b = addrCmd p r k := by
  rw [txnsOf_move] at h
  simpa [addrTxn] using h

theorem cmd_mem_putc {p : Params} {ch b : Byte} {c : Ct} (h : .cmd b ∈ txnsOf (putcScript p ch c)) :
    b = addrCmd p 1#8 0#8 := by
  rw [txnsOf_putc] at h
  exact cmd_mem_putTxns h

theorem cmd_mem_clrline {p : Params} {k b : Byte} {c : Ct} (h : .cmd b ∈ txnsOf (clrlineScript p k c)) :
    b = addrCmd p 1#8 0#8 := by
  rw [clrlineScript, txnsOf_spaces] at h
  exact cmd_mem_spacesTxns h

theorem mem_txnsOf_andThen {p : Params} {a b : Script} {c : Ct} {t : Txn} :
    t ∈ txnsOf (Script.andThen p a b c) ↔ t ∈ txnsOf (a c) ∨ t ∈ txnsOf (b (c.after p (a c))) := by
  rw [andThen_txns, List.mem_append]

theorem cmd_mem_number {p : Params} {n b : Byte} {c : Ct} (h : .cmd b ∈ txnsOf (numberScript p n c)) :
    b = addrCmd p 1#8 0#8 := by
  obtain hfirst | hsecond := mem_txnsOf_andThen.1 h
  · exact cmd_mem_putc hfirst
  · exact cmd_mem_putc hsecond

/-- R153's cascade is made from the top row only, and moves to the bottom row. -/
theorem cmd_mem_cascade {p : Params} {x b : Byte} {c : Ct} (h : .cmd b ∈ txnsOf (cascadeScript p x c)) :
    x = 0#8 ∧ b = addrCmd p 1#8 0#8 := by
  unfold cascadeScript at h
  split at h
  · next hx =>
    obtain hmove | hline := mem_txnsOf_andThen.1 h
    · exact ⟨hx, cmd_mem_move hmove⟩
    · exact ⟨hx, cmd_mem_clrline hline⟩
  · cases h

/-- Clearing the line from the column where it stands sends spaces only: the 16 columns end at the wrap (R152). -/
theorem cmd_not_mem_clrline {p : Params} (hp : p.specGeometry = true) {y b : Byte} {c : Ct} (hcol : c.col = y) :
    .cmd b ∉ txnsOf (clrlineScript p y c) := by
  obtain ⟨hcols, hwrap⟩ := specGeometry_cols hp
  rw [clrlineScript, txnsOf_spaces, clrlineCount, hcols, hcol]
  by_cases hy : y.toNat ≤ 16
  · have hfits : y.toNat + (16 - y.toNat) ≤ p.wrapCol.toNat := by rw [hwrap]; exact (Nat.add_sub_of_le hy).le
    rw [(spaces_plain p (specGeometry_specWidths hp) _ _ hfits).1]
    simp
  · rw [Nat.sub_eq_zero_of_le (by omega)]
    exact List.not_mem_nil

/-- `CLRFROM` moves to its operands and back to the column on entry (R153). -/
theorem cmd_mem_clrfrom {p : Params} (hp : p.specGeometry = true) {x y b : Byte} {c : Ct}
    (h : .cmd b ∈ txnsOf (clrfromScript p x y c)) :
    b = addrCmd p x y ∨ (x = 0#8 ∧ b = addrCmd p 1#8 0#8) ∨ b = addrCmd p x c.col := by
  have hw := specGeometry_specWidths hp
  simp only [clrfromScript, mem_txnsOf_andThen] at h
  obtain hsave | hmove | hline | hcascade | hrestore := h
  · cases hsave
  · exact .inl (cmd_mem_move hmove)
  · refine absurd hline (cmd_not_mem_clrline hp ?_)
    rw [after_move, specWidths_colVal hw]
  · exact .inr (.inl (cmd_mem_cascade hcascade))
  · refine .inr (.inr ?_)
    have hsaved := cmd_mem_move hrestore
    rwa [after_cascade_saved, clrlineScript, after_spaces_saved, after_move] at hsaved

/-- Settles O41: request by request, from the commands its pseudocode issues. -/
theorem instructionBytesAreListed : Obligations.InstructionBytesAreListed := by
  intro p c i b hp hnot h
  have hw := specGeometry_specWidths hp
  change .cmd b ∈ txnsOf (scriptOf p i c) at h
  cases i with
  | init => exact .inl ⟨rfl, by simpa [scriptOf, initScript, txnsOf] using h⟩
  | clear => exact .inr (.inl ⟨rfl, by simpa [scriptOf, clearScript, Script.txn, txnsOf] using h⟩)
  | home => exact .inr (.inr (.inl ⟨rfl, by simpa [scriptOf, homeScript, Script.txn, txnsOf] using h⟩))
  | move r k =>
    rw [scriptOf, specWidths_operand hw, specWidths_operand hw] at h
    exact .inr (.inr (.inr (.inl ⟨r, k, rfl, cmd_mem_move h⟩)))
  | putc ch => exact .inr (.inr (.inr (.inr (.inl ⟨.inl ⟨ch, rfl⟩, cmd_mem_putc h⟩))))
  | number n => exact .inr (.inr (.inr (.inr (.inl ⟨.inr (.inl ⟨n, rfl⟩), cmd_mem_number h⟩))))
  | clrline k => exact .inr (.inr (.inr (.inr (.inl ⟨.inr (.inr ⟨k, rfl⟩), cmd_mem_clrline h⟩))))
  | clrfrom x y =>
    rw [scriptOf, specWidths_operand hw, specWidths_operand hw] at h
    exact .inr (.inr (.inr (.inr (.inr ⟨x, y, rfl, cmd_mem_clrfrom hp h⟩))))
  | peCmd k => exact absurd rfl (hnot k)
  | setcfg k | peData k | pePortinit | peSelect k =>
    simp [scriptOf, setcfgScript, peDataScript, pePortinitScript, peSelectScript, Script.txn, txnsOf] at h

/-! ### What an HD44780 takes an address command for (R99) -/

/-- An instruction byte addresses DDRAM when its bit 7 is set, and only then. -/
theorem lcdClassify_of_bit {b : Byte} (h : b.getLsbD 7 = true) : lcdClassify b = .setDdram (b.extractLsb' 0 7) := if_pos h

theorem lcdClassify_ne_setDdram {b : Byte} (h : b.getLsbD 7 = false) (a : BitVec 7) : lcdClassify b ≠ .setDdram a := by
  rw [lcdClassify, h, if_neg Bool.false_ne_true]
  split_ifs <;> exact nofun

/-- A command 0x80 sets bit 7 and keeps the address (R51, R142). -/
theorem lcdClassify_or_high (d : Byte) : lcdClassify (0x80#8 ||| d) = .setDdram (BitVec.ofNat 7 d.toNat) := by
  have hbit : (0x80#8 ||| d).getLsbD 7 = true := by rw [BitVec.getLsbD_or]; rfl
  rw [lcdClassify_of_bit hbit, BitVec.extractLsb'_or, show (0x80#8).extractLsb' 0 7 = 0#7 from rfl, BitVec.zero_or]
  rfl

/-- Settles O43: the address of an in-range position is below 0x80, so that `ADDR_CMD_PREFIX` alone decides bit 7. -/
theorem addressPrefixConflict : Obligations.AddressPrefixConflict := by
  intro p r c hp hr hc
  have haddr := toNat_ddramAddr_inRange hp hr hc
  refine ⟨fun hpre a => ?_, fun hpre => ?_⟩
  · have hbit : (ddramAddr p r c).getLsbD 7 = false := Nat.testBit_lt_two_pow (by omega)
    rw [addrCmd, hpre, BitVec.zero_or]
    exact lcdClassify_ne_setDdram hbit a
  · rw [addrCmd, hpre, lcdClassify_or_high, haddr]

end Sys2Proof.Machine
end

section
/-! The assembler (30_encoding R87, R88), by the number of operands a form takes. -/

namespace Sys2Proof.Machine

/-- A form without operands. -/
theorem assemble_no_operand {op : HostOp} {i : Instr} (harity : op.arity = 0) (hreq : assembleReq op [] = some i)
    (os : List Nat) : assemble (.req op os) = if os = [] then some [i] else none := by
  rw [assemble_req, harity]
  cases os with
  | nil => simp [hreq]
  | cons o rest => simp

/-- A wrong number of operands is an assembly error. -/
theorem assemble_eq_none {op : HostOp} {os : List Nat} (h : os.length ≠ op.arity) : assemble (.req op os) = none := by
  rw [assemble_req, if_neg fun hos => h hos.1]

theorem assemble_one_operand {op : HostOp} {f : Byte → Instr} (harity : op.arity = 1)
    (hreq : ∀ a, assembleReq op [a] = some (f a)) (a : Nat) :
    assemble (.req op [a]) = if a ≤ 255 then some [f (BitVec.ofNat 8 a)] else none := by
  simp [assemble_req, harity, hreq]

theorem assemble_two_operands {op : HostOp} {f : Byte → Byte → Instr} (harity : op.arity = 2)
    (hreq : ∀ a b, assembleReq op [a, b] = some (f a b)) (a b : Nat) :
    assemble (.req op [a, b]) =
      if a ≤ 255 ∧ b ≤ 255 then some [f (BitVec.ofNat 8 a) (BitVec.ofNat 8 b)] else none := by
  simp [assemble_req, harity, hreq]

/-- A text of bytes assembles to R88's expansion. -/
theorem assemble_write_bytes (bytes : List Byte) :
    assemble (.write (bytes.map BitVec.toNat)) = some (writeRequests bytes) := by
  have hall : ∀ b ∈ bytes.map BitVec.toNat, b ≤ 255 := by
    intro b hb
    obtain ⟨v, -, rfl⟩ := List.mem_map.1 hb
    exact Nat.le_of_lt_succ v.isLt
  rw [assemble_write, if_pos hall]
  simp [writeRequests]

/-- Settles O60: each of the nine forms takes the operands of its arity, in the order of `assembleReq`. -/
theorem assemblyNeedsWellFormedLines : Obligations.AssemblyNeedsWellFormedLines := by
  unfold Obligations.AssemblyNeedsWellFormedLines
  intro plain one two
  have hplain {op : HostOp} {i : Instr} (harity : op.arity = 0) (hreq : assembleReq op [] = some i) : plain op i :=
    assemble_no_operand harity hreq
  have hone {op : HostOp} {f : Byte → Instr} (harity : op.arity = 1) (hreq : ∀ a, assembleReq op [a] = some (f a)) :
      one op f :=
    ⟨fun _ hos => assemble_eq_none (harity ▸ hos), assemble_one_operand harity hreq⟩
  have htwo {op : HostOp} {f : Byte → Byte → Instr} (harity : op.arity = 2)
      (hreq : ∀ a b, assembleReq op [a, b] = some (f a b)) : two op f :=
    ⟨fun _ hos => assemble_eq_none (harity ▸ hos), assemble_two_operands harity hreq⟩
  refine ⟨hplain rfl rfl, hone rfl fun _ => rfl, htwo rfl fun _ _ => rfl, hone rfl fun _ => rfl, hplain rfl rfl,
    hplain rfl rfl, hone rfl fun _ => rfl, hone rfl fun _ => rfl, htwo rfl fun _ _ => rfl, fun bytes hbytes => ?_,
    fun bytes hbytes => ?_, assemble_write_bytes⟩
  · rw [assemble_write, if_pos hbytes]
  · obtain ⟨b, hb, hbig⟩ := hbytes
    rw [assemble_write, if_neg fun hall => absurd (hall b hb) (by omega)]

end Sys2Proof.Machine
end

section
/-! The protocol engine on its own (40_protocol_engine): its micro-operations, what a nibble frame and a byte latch, its four
transactions as requests, and their events counted and timed. -/

namespace Sys2Proof.Machine

/-! ### The micro-operations (R100) -/

/-- A micro-operation that writes the active port's data register does nothing else but append the write. -/
theorem run_of_writeData {op : PeOp} {s : State} {v : Byte} (h : op.run s.par s.pe = s.pe.writeData s.pe.active v) :
    (MicroOp.pe op).run s =
      { s with
        pe := { s.pe with ports := portWrite s.pe.ports (dataKey s.pe.active) v }
        trace := s.trace ++ [.wrData s.pe.active v] } := by
  rw [MicroOp.run, h, Pe.writeData]

/-- With R7's layout `DIRCFG` sets the bits of 0xF3 and keeps the others. -/
theorem specLayout_dirCfg {p : Params} (hp : p.specLayout = true) (d : Byte) : p.portVal (d ||| p.dirMask) = d ||| 0xF3#8 := by
  obtain ⟨-, -, -, -, hdir⟩ := (specLayout_iff p).1 hp
  rw [specLayout_portVal hp, hdir]

/-- Settles O16: each row is the micro-operation's own equation, and R7's layout makes the masks those the table prints. -/
theorem microOperationTable : Obligations.MicroOperationTable := by
  intro s a d wrote dirV
  refine ⟨run_of_writeData rfl, run_of_writeData rfl, run_of_writeData rfl, run_of_writeData rfl,
    fun v => run_of_writeData rfl, run_of_writeData rfl, fun h => rfl, fun h => ?_, fun k => rfl, fun hp => ?_⟩
  · simp [MicroOp.run, PeOp.run]
  · obtain ⟨hnibble, hrs, he, -, hdir, -⟩ := specLayout_masks hp
    rw [hnibble, hrs, he, hdir]
    exact ⟨specLayout_portVal hp, rfl, rfl, rfl, rfl, rfl, fun h => rfl⟩

/-! ### Nibble frames and bytes (R101 to R103) -/

/-- The lines a nibble frame keeps are RS and the reserved ones. -/
theorem keptLines (d : Byte) : (d &&& 0x0E#8) &&& 0xF1#8 = 0#8 ∧ (d &&& 0x0E#8).getLsbD 1 = d.getLsbD 1 := by
  revert d; decide

/-- Settles O18: the first two writes of a nibble frame have E at 1, and the third lowers it with the nibble on the lines. -/
theorem nibbleFrameLatchesOnce : Obligations.NibbleFrameLatchesOnce := by
  intro p v q hp hv
  obtain ⟨hlines, hrs⟩ := keptLines q.d
  rw [nib_run hp v q hv]
  refine ⟨rfl, ?_, ?_⟩
  · simp [latches, latchOf_eHi hp]
  · rw [← hrs]
    simp [latches, latchOf_eHi hp, latchOf_eLo hp hv hlines]

/-- The final value of a data byte has the RS level it was sent under (R103). -/
theorem dataFinal_rs {p : Params} (hp : p.specLayout = true) (d b : Byte) : (dataFinal d b).getLsbD 1 = d.getLsbD 1 := by
  obtain ⟨hlines, hrs⟩ := keptLines d
  obtain ⟨-, hfinal, -⟩ := fields_or hp (loOf_lines b).1 hlines
  obtain ⟨-, hfield, -⟩ := specLayout_fields hp (loOf b ||| (d &&& 0x0E#8))
  exact hfield.symm.trans (hfinal.trans hrs)

/-- Settles O19: `SEND_BYTE` is R112's events, which latch the high nibble and then the low one. -/
theorem sendByteHighNibbleFirst : Obligations.SendByteHighNibbleFirst := by
  intro p b q hp
  have hfinal : (peOps p (sendByte p b) q).1.d = dataFinal q.d b := by
    rw [sendByte_run hp]
    exact portRead_portWrite_self _ _ _
  refine ⟨?_, ?_, hfinal, ?_⟩
  · rw [sendByte_run hp]
  · rw [sendByte_run hp, latches_dataEvents hp]
  · rw [hfinal, dataFinal_rs hp]

/-! ### The transactions as requests (R110 to R114) -/

/-- A transaction put to an idle block, its handle check passed, completes as the PE serves it, and nothing else changes. -/
theorem exec_toInstr {s : State} (hidle : s.seq = .idle) {t : Txn} (hf : faultOf s.par t.toInstr = none) :
    exec t.toInstr s =
      .next { s with pe := (peTxn s.par t s.pe).1, trace := s.trace ++ (peTxn s.par t s.pe).2 } := by
  have hscript : scriptOf s.par t.toInstr = .txn t := by cases t <;> rfl
  rw [exec_idle hidle, hf, hscript, carryOut_none, State.expand, Script.txn, List.flatMap_singleton, CtStep.micro,
    runMicro_map_pe, peTxn_none hf]

/-- Settles O20: `PE.CMD b` is `SEND_CMD(b)`. -/
theorem peCmdResult : Obligations.PeCmdResult := by
  intro b s hp hidle
  have hexec := exec_toInstr hidle (t := .cmd b) rfl
  rw [peTxn_cmd, sendCmd_run hp] at hexec
  exact hexec

/-- Settles O21: `PE.DATA b` is `SEND_BYTE(b)`. -/
theorem peDataResult : Obligations.PeDataResult := by
  intro b s hp hidle
  have hexec := exec_toInstr hidle (t := .data b) rfl
  rw [peTxn_data, sendByte_run hp] at hexec
  exact hexec

/-- Zeroing the data register latches (0, 0x0) when E falls by it, for every layout (R113). -/
theorem latchOf_zero (p : Params) (prev : Byte) : latchOf p prev 0#8 = if eOf p prev then [⟨false, 0#4⟩] else [] := by
  have hfall : fallingEdge p prev 0#8 = eOf p prev := by simp [fallingEdge, eOf]
  have hpair : (⟨rsOf p 0#8, dbOf p 0#8⟩ : Latch) = ⟨false, 0#4⟩ := by simp [rsOf, dbOf]
  rw [latchOf, hfall, hpair]

/-- Settles O22: of `DIRCFG` and `ZERO` the second alone writes the data register, where E may fall. -/
theorem pePortinitResult : Obligations.PePortinitResult := by
  intro s hidle a v
  refine ⟨exec_toInstr hidle (t := .portInit) rfl, ?_, fun hp => ⟨specLayout_dirCfg hp _, ?_⟩⟩
  · simp [latches, latchOf_zero]
  · exact (specLayout_fields hp _).1

/-- Settles O23: `SETCFG` issues `PE.SELECT`, whose check a member handle passes. -/
theorem selectResult : Obligations.SelectResult := by
  intro h s hidle hmember k v t
  have hf : faultOf s.par (Txn.select h).toInstr = none := by simp [Txn.toInstr, faultOf, selectFault, hmember]
  have hselect : exec (.peSelect h) s = .next t := by
    have hexec := exec_toInstr hidle hf
    rw [peTxn_select, if_pos hmember] at hexec
    exact hexec
  have hsetcfg : exec (.setcfg h) s = exec (.peSelect h) s := rfl
  exact ⟨hselect, hsetcfg.trans hselect, fun hw => specWidths_handleOf hw h, fun hp => specLayout_dirCfg hp _⟩

/-! ### Events counted and timed (R105, R115) -/

/-- The counts with a micro-operation's events added: which kind of event it appends does not depend on the registers. -/
def PeOp.addTo (op : PeOp) (c : EventCount) : EventCount :=
  match op with
  | .eHi | .eLo | .rsHi | .rsLo | .put _ | .zero => { c with wrData := c.wrData + 1 }
  | .dirCfg _ => { c with wrDir := c.wrDir + 1 }
  | .setAct _ => c
  | .wait k => c.add (.wait k)

theorem countEvents_run_append (p : Params) (op : PeOp) (q : Pe) (evs : List Event) :
    countEvents ((op.run p q).2 ++ evs) = op.addTo (countEvents evs) := by
  cases op <;> rfl

/-- The counts of some micro-operations' events are those of the micro-operations, at every parameter and in every PE state. -/
theorem countEvents_peOps (p : Params) (ops : List PeOp) (q : Pe) :
    countEvents (peOps p ops q).2 = ops.foldr PeOp.addTo ⟨0, 0, 0, 0, 0⟩ := by
  induction ops generalizing q with
  | nil => rfl
  | cons op rest ih => rw [peOps, countEvents_run_append, ih, List.foldr_cons]

theorem countEvents_peTxn_cmd (p : Params) (b : Byte) (q : Pe) : countEvents (peTxn p (.cmd b) q).2 = ⟨8, 0, 1, 1, 1⟩ :=
  countEvents_peOps p (sendCmd p b) q

theorem countEvents_peTxn_data (p : Params) (b : Byte) (q : Pe) : countEvents (peTxn p (.data b) q).2 = ⟨6, 0, 1, 1, 0⟩ :=
  countEvents_peOps p (sendByte p b) q

/-- The minimum duration of some events depends on how many waits of each kind they have, and on nothing else (R250). -/
theorem minNs_eq_of_countEvents (p : Params) (evs : List Event) :
    minNs p evs =
      (countEvents evs).gap * p.tGapNs + (countEvents evs).byte * p.tByteNs + (countEvents evs).cmd * p.tCmdNs := by
  induction evs with
  | nil => simp [minNs, countEvents]
  | cons e rest ih =>
    cases e with
    | wrDir h v | wrData h v => exact ih
    | wait k =>
      rw [minNs, ih]
      cases k <;> simp only [waitNs, countEvents, EventCount.add, Nat.cast_succ] <;> ring

/-- A command takes `C` at least, a data byte `D` (R115, R250). -/
theorem minNs_peTxn_cmd (p : Params) (b : Byte) (q : Pe) : minNs p (peTxn p (.cmd b) q).2 = cmdNs p := by
  rw [minNs_eq_of_countEvents, countEvents_peTxn_cmd]
  simp [cmdNs]

theorem minNs_peTxn_data (p : Params) (b : Byte) (q : Pe) : minNs p (peTxn p (.data b) q).2 = dataNs p := by
  rw [minNs_eq_of_countEvents, countEvents_peTxn_data]
  simp [dataNs]

/-- Settles O27: the counts are those of each transaction's micro-operations, and the counts of the waits give the durations. -/
theorem transactionEventCounts : Obligations.TransactionEventCounts := by
  intro b h q p
  refine ⟨countEvents_peTxn_cmd p b q, countEvents_peTxn_data p b q, ?_, fun hmember => ?_, fun hnot => ?_,
    fun hw => specWidths_handleOf hw h, minNs_peTxn_cmd p b q, minNs_peTxn_data p b q⟩
  · rw [peTxn_portInit, countEvents_peOps]
    rfl
  · rw [peTxn_select, if_pos hmember, countEvents_peOps]
    rfl
  · rw [peTxn_select, hnot, if_neg Bool.false_ne_true]

end Sys2Proof.Machine
end

section
/-! A request of an idle block as the service of its pseudocode (41_cursor_tracker R155): the PE serves the transactions, the CT
the updates. Requests in sequence are their pseudocode in sequence (R149, R151, R153). -/

namespace Sys2Proof.Machine

/-! ### One request -/

/-- The state after some pseudocode: the PE has served its transactions and the CT its updates. -/
def State.served (s : State) (sc : Script) : State :=
  { s with
    pe := (peTxns s.par (txnsOf (sc s.ct)) s.pe).1
    ct := s.ct.after s.par (sc s.ct)
    trace := s.trace ++ (peTxns s.par (txnsOf (sc s.ct)) s.pe).2 }

@[simp] theorem served_par (s : State) (sc : Script) : (s.served sc).par = s.par := rfl
@[simp] theorem served_ct (s : State) (sc : Script) : (s.served sc).ct = s.ct.after s.par (sc s.ct) := rfl
@[simp] theorem served_seq (s : State) (sc : Script) : (s.served sc).seq = s.seq := rfl
@[simp] theorem served_trace (s : State) (sc : Script) :
    (s.served sc).trace = s.trace ++ (peTxns s.par (txnsOf (sc s.ct)) s.pe).2 := rfl

/-- A request whose handle check passes completes in the state its pseudocode leaves. -/
theorem exec_served {s : State} (hidle : s.seq = .idle) {i : Instr} (hf : faultOf s.par i = none) :
    exec i s = .next (s.served (scriptOf s.par i)) := by
  cases hi : writesActive i with
  | false =>
    rw [exec_idle hidle, hf, carryOut_none, State.expand, runMicro_steps _ _ (noSelect_scriptOf s.par i s.ct hi)]
    rfl
  | true =>
    cases i with
    | setcfg h | peSelect h =>
      refine (exec_toInstr hidle (t := .select h) hf).trans ?_
      have hpe : peTxns s.par [.select h] s.pe = peTxn s.par (.select h) s.pe := by simp [peTxns]
      rw [← hpe]
      rfl
    | _ => cases hi

/-- Settles O44: a request faults before its first transaction, or is its pseudocode served by the two units. -/
theorem requestIsPeAfterCt : Obligations.RequestIsPeAfterCt := by
  intro i s hidle
  cases hf : faultOf s.par i with
  | some f => rw [exec_idle hidle, hf]; rfl
  | none => exact exec_served hidle hf

/-- Settles O45: the CT's registers after a request are `ctAfter` of its registers before it, in which no port occurs. -/
theorem cursorIgnoresThePorts : Obligations.CursorIgnoresThePorts := by
  intro i s s' t t' hpar hct hidle hidle' hexec hexec'
  rw [exec_idle hidle] at hexec
  rw [exec_idle hidle'] at hexec'
  injection hexec with ht
  injection hexec' with ht'
  rw [← ht, ← ht', (carryOut_units s i).2, (carryOut_units s' i).2, hpar, hct]

/-- At R7's widths a request takes its operands whole: its pseudocode is run on them. -/
theorem exec_move {s : State} (hw : s.par.specWidths = true) (hidle : s.seq = .idle) (r c : Byte) :
    exec (.move r c) s = .next (s.served (moveScript s.par r c)) := by
  obtain ⟨hmove, -⟩ := scriptOf_specWidths hw
  rw [exec_served hidle rfl, hmove]

theorem exec_putc {s : State} (hw : s.par.specWidths = true) (hidle : s.seq = .idle) (ch : Byte) :
    exec (.putc ch) s = .next (s.served (putcScript s.par ch)) := by
  obtain ⟨-, hputc, -⟩ := scriptOf_specWidths hw
  rw [exec_served hidle rfl, hputc]

theorem exec_number {s : State} (hw : s.par.specWidths = true) (hidle : s.seq = .idle) (n : Byte) :
    exec (.number n) s = .next (s.served (numberScript s.par n)) := by
  obtain ⟨-, -, hnumber, -⟩ := scriptOf_specWidths hw
  rw [exec_served hidle rfl, hnumber]

theorem exec_clrline {s : State} (hw : s.par.specWidths = true) (hidle : s.seq = .idle) (c : Byte) :
    exec (.clrline c) s = .next (s.served (clrlineScript s.par c)) := by
  obtain ⟨-, -, -, hline, -⟩ := scriptOf_specWidths hw
  rw [exec_served hidle rfl, hline]

theorem exec_clrfrom {s : State} (hw : s.par.specWidths = true) (hidle : s.seq = .idle) (x y : Byte) :
    exec (.clrfrom x y) s = .next (s.served (clrfromScript s.par x y)) := by
  obtain ⟨-, -, -, -, hclrfrom⟩ := scriptOf_specWidths hw
  rw [exec_served hidle rfl, hclrfrom]

/-! ### Requests in sequence -/

/-- Pseudocode in sequence is served in sequence. -/
theorem served_andThen {s : State} {p : Params} (hpar : s.par = p) (a b : Script) :
    s.served (Script.andThen p a b) = (s.served a).served b := by
  simp [State.served, hpar, andThen_txns, andThen_after, peTxns_append]

@[simp] theorem served_nothing (s : State) : s.served .nothing = s := by
  simp [State.served, Script.nothing, txnsOf, peTxns, Ct.after]

/-- A request that completes, and then some others. -/
theorem execAll_cons {i : Instr} {s t : State} (h : exec i s = .next t) (rest : List Instr) :
    execAll (i :: rest) s = execAll rest t := by
  rw [execAll, h]

/-- `WRITE`'s pseudocode: a `PUTC` for each byte of the text (R145). -/
def textScript (p : Params) : List Byte → Script
  | [] => .nothing
  | ch :: rest => Script.andThen p (putcScript p ch) (textScript p rest)

/-- R151's loop writes a text of spaces. -/
theorem spacesScript_eq (p : Params) (k : Nat) : spacesScript p k = textScript p (List.replicate k p.charSpace) := by
  induction k with
  | zero => rfl
  | succ k ih => rw [spacesScript, ih]; rfl

/-- `WRITE` completes as its pseudocode. -/
theorem execWrite_served {s : State} (hw : s.par.specWidths = true) (hidle : s.seq = .idle) (text : List Byte) :
    execWrite text s = .next (s.served (textScript s.par text)) := by
  induction text generalizing s with
  | nil => rw [textScript, served_nothing]; rfl
  | cons ch rest ih =>
    rw [textScript, served_andThen rfl]
    exact (execAll_cons (exec_putc hw hidle ch) _).trans (ih (s := s.served _) hw hidle)

end Sys2Proof.Machine
end

section
/-! What each request of the cursor tracker leaves (41_cursor_tracker R140 to R148): the exact next states, with R7's layout. -/

namespace Sys2Proof.Machine

/-! ### The PE after one or two bytes -/

/-- The data register of the active port reads as what was written to it. -/
@[simp] theorem d_portWrite (a : Nat) (m : List Host.Cell) (v : Byte) :
    Pe.d { active := a, ports := portWrite m (dataKey a) v } = v :=
  portRead_portWrite_self _ _ _

theorem peTxns_cmd {p : Params} (hl : p.specLayout = true) (b : Byte) (q : Pe) :
    peTxns p [.cmd b] q =
      ({ q with ports := portWrite q.ports (dataKey q.active) (cmdFinal q.d b) }, cmdEvents q.active q.d b) := by
  simp [peTxns, sendCmd_run hl]

theorem peTxns_data {p : Params} (hl : p.specLayout = true) (b : Byte) (q : Pe) :
    peTxns p [.data b] q =
      ({ q with ports := portWrite q.ports (dataKey q.active) (dataFinal q.d b) }, dataEvents q.active q.d b) := by
  simp [peTxns, sendByte_run hl]

theorem peTxns_cmd_data {p : Params} (hl : p.specLayout = true) (b ch : Byte) (q : Pe) :
    peTxns p [.cmd b, .data ch] q =
      ({ q with ports := portWrite q.ports (dataKey q.active) (dataFinal (cmdFinal q.d b) ch) },
        cmdEvents q.active q.d b ++ dataEvents q.active (cmdFinal q.d b) ch) := by
  have happ := peTxns_append p [.cmd b] [.data ch] q
  rw [peTxns_cmd hl, peTxns_data hl, d_portWrite, portWrite_portWrite_self] at happ
  exact happ

/-! ### The address command (R142) -/

/-- With R7's row shift the address command is the formula cut to a byte. -/
theorem addrCmd_eq_ofNat {p : Params} (hp : p.specGeometry = true) (r c : Byte) :
    addrCmd p r c = BitVec.ofNat 8 (p.addrCmdPrefix.toNat ||| (r.toNat <<< 6) ||| c.toNat) := by
  obtain ⟨-, -, -, hshift, -⟩ := (specGeometry_iff p).1 hp
  have hprefix : p.addrCmdPrefix.toNat % 2 ^ 8 = p.addrCmdPrefix.toNat := Nat.mod_eq_of_lt p.addrCmdPrefix.isLt
  apply BitVec.eq_of_toNat_eq
  rw [addrCmd, BitVec.toNat_or, toNat_ddramAddr, hshift, BitVec.toNat_ofNat, Nat.or_assoc, Nat.or_mod_two_pow, hprefix]

/-- R143's spelling of it. -/
theorem addrCmd_eq_or {p : Params} (hp : p.specGeometry = true) (r c : Byte) :
    addrCmd p r c = p.addrCmdPrefix ||| (r <<< 6) ||| c := by
  obtain ⟨-, -, -, hshift, -⟩ := (specGeometry_iff p).1 hp
  rw [addrCmd, ddramAddr, hshift, BitVec.or_assoc]

/-- The wrap's own move goes to row 1, column 0 (R144). -/
theorem addrCmd_wrap {p : Params} (hp : p.specGeometry = true) : addrCmd p 1#8 0#8 = p.addrCmdPrefix ||| 0x40#8 := by
  rw [addrCmd_eq_or hp, BitVec.or_assoc]
  rfl

/-! ### The results -/

/-- With R7's geometry a move out of R142's range marks misuse, and no other. -/
theorem not_inRange_eq {p : Params} (hp : p.specGeometry = true) (r c : Byte) :
    (!inRange p r c) = decide (r.toNat > 1 ∨ c.toNat > 15) := by
  rw [specGeometry_inRange hp, Bool.eq_iff_iff]
  simp only [Bool.not_eq_true', Bool.and_eq_false_iff, decide_eq_false_iff_not, decide_eq_true_eq]
  omega

/-- Settles O29: `MOVE` is one command, the address, and sets the column. -/
theorem moveResult : Obligations.MoveResult := by
  intro r c s hl hp hidle b
  have hw := specGeometry_specWidths hp
  have haddr : b = addrCmd s.par r c := (addrCmd_eq_ofNat hp r c).symm
  rw [exec_move hw hidle, State.served, txnsOf_move, after_move, addrTxn, peTxns_cmd hl, specWidths_colVal hw,
    not_inRange_eq hp, haddr]

/-- `PUTC` at the wrap column, with R7's geometry: the wrap's move is in range and marks nothing, and the column ends at 1. -/
theorem putc_at_wrap {p : Params} (hp : p.specGeometry = true) {c : Ct} (hc : c.col = 16#8) (ch : Byte) :
    txnsOf (putcScript p ch c) = [.cmd (p.addrCmdPrefix ||| 0x40#8), .data ch] ∧
      c.after p (putcScript p ch c) = { c with col := 1#8 } := by
  have hwrap := (specGeometry_cols hp).2
  have hrange : inRange p 1#8 0#8 = true := specGeometry_inRange hp _ _
  rw [txnsOf_putc, after_putc, putTxns, colAfterPutc, hwrap, if_pos hc, if_pos hc, addrTxn, addrCmd_wrap hp,
    specWidths_colVal (specGeometry_specWidths hp), hrange]
  simp

/-- `PUTC` at every other column: the character alone, and the column one further. -/
theorem putc_off_wrap {p : Params} (hp : p.specGeometry = true) {c : Ct} (hc : c.col ≠ 16#8) (ch : Byte) :
    txnsOf (putcScript p ch c) = [.data ch] ∧
      c.after p (putcScript p ch c) = { c with col := BitVec.ofNat 8 (c.col.toNat + 1) } := by
  have hwrap := (specGeometry_cols hp).2
  have hnext : BitVec.ofNat 8 (c.col.toNat + 1) = c.col + 1#8 := by
    rw [BitVec.ofNat_add, BitVec.ofNat_toNat, BitVec.setWidth_eq]
  rw [txnsOf_putc, after_putc, putTxns, colAfterPutc, hwrap, if_neg hc, if_neg hc,
    specWidths_colVal (specGeometry_specWidths hp), hnext]
  simp [hc]

/-- Settles O31: the pseudocode at column 16 and elsewhere, each served by the PE. -/
theorem putcResult : Obligations.PutcResult := by
  intro ch s hl hp hidle a d1
  rw [exec_putc (specGeometry_specWidths hp) hidle, State.served]
  split
  · next hc =>
    obtain ⟨htxns, hafter⟩ := putc_at_wrap hp hc ch
    rw [htxns, hafter, peTxns_cmd_data hl, List.append_assoc]
  · next hc =>
    obtain ⟨htxns, hafter⟩ := putc_off_wrap hp hc ch
    rw [htxns, hafter, peTxns_data hl]

/-- A request whose pseudocode is one command changes the active port and the trace only. -/
theorem served_cmd {s : State} (hl : s.par.specLayout = true) (b : Byte) :
    s.served (.txn (.cmd b)) =
      { s with
        pe := { s.pe with ports := portWrite s.pe.ports (dataKey s.pe.active) (cmdFinal s.pe.d b) }
        trace := s.trace ++ cmdEvents s.pe.active s.pe.d b } := by
  have htxns : txnsOf (Script.txn (.cmd b) s.ct) = [.cmd b] := rfl
  rw [State.served, htxns, peTxns_cmd hl]
  rfl

/-- R7's bytes, value by value. -/
theorem specBytes_iff (p : Params) :
    p.specBytes = true ↔
      p.opHandshake = 0x02#8 ∧ p.opFuncset = 0x28#8 ∧ p.opEntry = 0x06#8 ∧ p.opDispon = 0x0C#8 ∧ p.opClear = 0x01#8 ∧
        p.opHome = 0x02#8 ∧ p.charZero = 0x30#8 ∧ p.charSpace = 0x20#8 ∧ p.charX = 0x78#8 := by
  simp [Params.specBytes, and_assoc]

/-- Settles O32: `CLEAR` and `HOME` are one command each. -/
theorem clearAndHomeResult : Obligations.ClearAndHomeResult := by
  intro s hl hidle sent
  have hclear : exec .clear s = .next (sent s.par.opClear) :=
    (exec_served hidle rfl).trans (congrArg _ (served_cmd hl s.par.opClear))
  have hhome : exec .home s = .next (sent s.par.opHome) :=
    (exec_served hidle rfl).trans (congrArg _ (served_cmd hl s.par.opHome))
  refine ⟨hclear, hhome, fun hb => ?_⟩
  obtain ⟨-, -, -, -, hopClear, hopHome, -⟩ := (specBytes_iff s.par).1 hb
  rw [hopClear] at hclear
  rw [hopHome] at hhome
  exact ⟨hclear, hhome⟩

end Sys2Proof.Machine
end

section
/-! The transactions of each host request (41_cursor_tracker R156), and the requests that are made of others (R149 to R153). -/

namespace Sys2Proof.Machine

/-! ### `NUMBER` (R149, R150) -/

/-- The characters of a number, as digits counted from `CHAR_ZERO`. -/
theorem numberChars_eq (p : Params) (n : Byte) : numberChars p n = renderedNumber p n := by
  have hdigit (d : Byte) (k : Nat) (hd : d.toNat = k) : digitChar p d = BitVec.ofNat 8 (p.charZero.toNat + k) := by
    rw [← hd, BitVec.ofNat_add, BitVec.ofNat_toNat, BitVec.ofNat_toNat, BitVec.setWidth_eq, BitVec.setWidth_eq, digitChar]
  unfold numberChars renderedNumber
  by_cases h10 : n.toNat < 10
  · rw [if_pos (Nat.le_of_lt_succ h10), if_pos h10, hdigit n _ rfl]
  · by_cases h20 : n.toNat < 20
    · have htens : (n - 10#8).toNat = n.toNat - 10 :=
        BitVec.toNat_sub_of_le (BitVec.le_def.2 (Nat.le_of_not_lt h10))
      rw [if_neg (by omega), if_pos (Nat.le_of_lt_succ h20), if_neg h10, if_pos h20, hdigit 1#8 1 rfl, hdigit _ _ htens]
    · rw [if_neg (by omega), if_neg (by omega), if_neg h10, if_neg h20]

/-- With R7's codes they are R150's. -/
theorem renderedNumber_eq_table {p : Params} (hb : p.specBytes = true) (n : Byte) : renderedNumber p n = tableNumber n := by
  obtain ⟨-, -, -, -, -, -, hzero, hspace, hx⟩ := (specBytes_iff p).1 hb
  rw [renderedNumber, tableNumber, hzero, hspace, hx]
  rfl

theorem txnsOf_number (p : Params) (n : Byte) (c : Ct) :
    txnsOf (numberScript p n c) =
      putTxns p c.col (renderedNumber p n).1 ++ putTxns p (colAfterPutc p c.col) (renderedNumber p n).2 := by
  rw [numberScript, andThen_txns, txnsOf_putc, txnsOf_putc, after_putc, numberChars_eq]

/-- Settles O33: `NUMBER`'s pseudocode is that of its two `PUTC`s. -/
theorem numberIsTwoCharacters : Obligations.NumberIsTwoCharacters := by
  intro n s hw hidle
  refine ⟨_, exec_number hw hidle n, ?_⟩
  rw [numberScript, served_andThen rfl, numberChars_eq, execAll_cons (exec_putc hw hidle _)]
  exact execAll_cons (exec_putc (s := s.served _) hw hidle _) []

/-! ### `CLRLINE` (R151, R152) -/

/-- With R7's geometry the spaces from a column up to 16 fill the columns up to the wrap and reach it. -/
theorem spaces_to_wrap {p : Params} (hp : p.specGeometry = true) {y : Byte} (hy : y.toNat ≤ 16) :
    spacesTxns p (16 - y.toNat) y = List.replicate (16 - y.toNat) (.data p.charSpace) ∧
      colAfterPutcs p (16 - y.toNat) y = 16#8 := by
  have hends : y.toNat + (16 - y.toNat) = 16 := Nat.add_sub_of_le hy
  have hfits : y.toNat + (16 - y.toNat) ≤ p.wrapCol.toNat := by rw [(specGeometry_cols hp).2, hends]; rfl
  obtain ⟨htxns, hcol⟩ := spaces_plain p (specGeometry_specWidths hp) _ _ hfits
  exact ⟨htxns, BitVec.eq_of_toNat_eq (hcol.trans hends)⟩

/-- A line cleared from the column where it stands takes spaces only (R152). -/
theorem txnsOf_clrline_own {p : Params} (hp : p.specGeometry = true) {y : Byte} {c : Ct} (hcol : c.col = y) :
    txnsOf (clrlineScript p y c) = List.replicate (16 - y.toNat) (.data p.charSpace) := by
  rw [clrlineScript, txnsOf_spaces, clrlineCount, (specGeometry_cols hp).1, hcol]
  by_cases hy : y.toNat ≤ 16
  · exact (spaces_to_wrap hp hy).1
  · rw [Nat.sub_eq_zero_of_le (Nat.le_of_not_le hy)]
    rfl

/-- Settles O36: the spaces from a column to the wrap, and the column they reach. -/
theorem clrlineFromItsColumn : Obligations.ClrlineFromItsColumn := by
  intro c s hp hidle hcol hc
  have hw := specGeometry_specWidths hp
  obtain ⟨-, -, -, hline, -⟩ := scriptOf_specWidths hw
  refine ⟨?_, _, exec_clrline hw hidle c, ?_⟩
  · change txnsOf (scriptOf s.par (.clrline c) s.ct) = _
    rw [hline, txnsOf_clrline_own hp hcol]
  · rw [served_ct, clrlineScript, after_spaces_col, hcol, clrlineCount, (specGeometry_cols hp).1, (spaces_to_wrap hp hc).2]

/-- Settles O35: `CLRLINE`'s pseudocode writes a text of `COLS - c` spaces. -/
theorem clrlineIsSpaces : Obligations.ClrlineIsSpaces := by
  intro c s hw hidle
  refine ⟨_, exec_clrline hw hidle c, ?_, fun hc => ?_, fun hp => (specGeometry_cols hp).1⟩
  · have hwrite := execWrite_served hw hidle (List.replicate (s.par.cols - c.toNat) s.par.charSpace)
    rw [execWrite, writeRequests, List.map_replicate, ← spacesScript_eq] at hwrite
    exact hwrite
  · rw [clrlineScript, clrlineCount, Nat.sub_eq_zero_of_le hc]
    exact served_nothing s

/-! ### `CLRFROM` (R153) -/

/-- Saving the column writes `SAVED` and nothing else. -/
theorem served_saveCol (s : State) : s.served (.upd .saveCol) = { s with ct := { s.ct with saved := s.ct.col } } := by
  simp [State.served, Script.upd, txnsOf, peTxns, Ct.after, CtOp.run]

/-- The cascade completes as R153's two further requests from row 0, and as none from another row. -/
theorem execAll_cascade {s : State} (hw : s.par.specWidths = true) (hidle : s.seq = .idle) (x : Byte) (rest : List Instr) :
    execAll ((if x = 0#8 then [.move 1#8 0#8, .clrline 0#8] else []) ++ rest) s =
      execAll rest (s.served (cascadeScript s.par x)) := by
  unfold cascadeScript
  split
  · rw [served_andThen rfl]
    exact (execAll_cons (exec_move hw hidle _ _) _).trans
      (execAll_cons (exec_clrline (s := s.served _) hw hidle _) _)
  · rw [served_nothing]
    rfl

/-- `CLRFROM` saves the column, clears, and moves to the column it found on entry. -/
theorem served_clrfrom (s : State) (x y : Byte) :
    s.served (clrfromScript s.par x y) =
      ((((s.served (.upd .saveCol)).served (moveScript s.par x y)).served (clrlineScript s.par y)).served
        (cascadeScript s.par x)).served (moveScript s.par x s.ct.col) := by
  rw [clrfromScript, served_andThen rfl, served_andThen (s := s.served _) (p := s.par) rfl,
    served_andThen (s := (s.served _).served _) (p := s.par) rfl,
    served_andThen (s := ((s.served _).served _).served _) (p := s.par) rfl]
  have hrestore (t : State) : t.served (restoreScript s.par x) = t.served (moveScript s.par x t.ct.saved) := rfl
  rw [hrestore]
  simp only [served_ct, served_par, after_cascade_saved, clrlineScript, after_spaces_saved, after_move]
  rfl

theorem after_clrfrom_saved (p : Params) (x y : Byte) (c : Ct) : (c.after p (clrfromScript p x y c)).saved = c.col := by
  simp only [clrfromScript, andThen_after, restoreScript, after_move, after_cascade_saved, clrlineScript,
    after_spaces_saved]
  rfl

/-- Settles O37: after `SAVED <- COL`, `CLRFROM`'s pseudocode is that of the listed requests. -/
theorem clrfromIsItsRequests : Obligations.ClrfromIsItsRequests := by
  intro x y s hw hidle
  refine ⟨_, exec_clrfrom hw hidle x y, ?_, ?_, after_clrfrom_saved ..⟩
  · rw [served_clrfrom, ← served_saveCol, List.append_assoc]
    generalize hs' : s.served (.upd .saveCol) = s'
    have hpar : s.par = s'.par := by rw [← hs', served_par]
    have hidle' : s'.seq = .idle := by rw [← hs', served_seq, hidle]
    rw [hpar] at hw ⊢
    refine (execAll_cons (exec_move hw hidle' x y) _).trans ?_
    refine (execAll_cons (exec_clrline (s := s'.served _) hw hidle' y) _).trans ?_
    refine (execAll_cascade (s := (s'.served _).served _) hw hidle' x _).trans ?_
    exact execAll_cons (exec_move (s := ((s'.served _).served _).served _) hw hidle' x _) []
  · exact (after_clrfrom_col ..).trans (specWidths_colVal hw _)

/-- The transactions of `CLRFROM`, with R7's geometry: each line is cleared from the column it was moved to. -/
theorem txnsOf_clrfrom {p : Params} (hp : p.specGeometry = true) (x y : Byte) (c : Ct) :
    txnsOf (clrfromScript p x y c) =
      [addrTxn p x y] ++ List.replicate (16 - y.toNat) (.data p.charSpace) ++
      (if x = 0#8 then [addrTxn p 1#8 0#8] ++ List.replicate 16 (.data p.charSpace) else []) ++ [addrTxn p x c.col] := by
  have hw := specGeometry_specWidths hp
  have hcascade (c : Ct) : txnsOf (cascadeScript p x c) =
      if x = 0#8 then [addrTxn p 1#8 0#8] ++ List.replicate 16 (.data p.charSpace) else [] := by
    unfold cascadeScript
    split
    · rw [andThen_txns, txnsOf_move, txnsOf_clrline_own hp (by rw [after_move, specWidths_colVal hw])]
      rfl
    · rfl
  simp only [clrfromScript, andThen_txns, hcascade, restoreScript, txnsOf_move, after_cascade_saved]
  rw [txnsOf_clrline_own hp (by rw [after_move, specWidths_colVal hw]), clrlineScript, after_spaces_saved, after_move,
    List.append_assoc, List.append_assoc]
  rfl

/-! ### The table (R156) -/

/-- Settles O40: row by row, the transactions of each pseudocode. -/
theorem transactionsOfRequests : Obligations.TransactionsOfRequests := by
  intro p c
  refine ⟨fun hw => ⟨specWidths_operand hw, specWidths_colVal hw⟩, rfl, fun h => rfl, fun r k => txnsOf_move p _ _ c,
    fun ch => txnsOf_putc p _ c, rfl, rfl, fun n => txnsOf_number p _ c, fun k => txnsOf_spaces p _ c, fun hp => ?_,
    fun hb => ?_⟩
  · obtain ⟨hcols, hwrap⟩ := specGeometry_cols hp
    obtain ⟨-, -, -, -, hclrfrom⟩ := scriptOf_specWidths (specGeometry_specWidths hp)
    refine ⟨hcols, hwrap, fun x y => ?_⟩
    change txnsOf (scriptOf p (.clrfrom x y) c) = _
    rw [hclrfrom, txnsOf_clrfrom hp]
  · have hinit : ctTxns p .init c =
        [.portInit, .cmd p.opHandshake, .cmd p.opFuncset, .cmd p.opEntry, .cmd p.opDispon, .cmd p.opClear] := rfl
    have hclear : ctTxns p .clear c = [.cmd p.opClear] := rfl
    have hhome : ctTxns p .home c = [.cmd p.opHome] := rfl
    obtain ⟨h1, h2, h3, h4, h5, h6, -, hspace, -⟩ := (specBytes_iff p).1 hb
    rw [hinit, hclear, hhome, h1, h2, h3, h4, h5, h6]
    exact ⟨rfl, rfl, rfl, renderedNumber_eq_table hb, hspace⟩

end Sys2Proof.Machine
end

section
/-! The bus bytes of a request (30_encoding R75, 41_cursor_tracker R140 to R154): the transactions one after another, from a
port whose RS is 1, and from any port where the first of them is a command. -/

namespace Sys2Proof.Machine

/-! ### Events one after another -/

/-- The value of `DATA[h]` after some events, `prev` being its value before them. -/
def dataAfter (h : Nat) (prev : Byte) : List Event → Byte
  | [] => prev
  | .wrData k v :: rest => if k = h then dataAfter h v rest else dataAfter h prev rest
  | .wrDir _ _ :: rest => dataAfter h prev rest
  | .wait _ :: rest => dataAfter h prev rest

/-- The LCD latches from the first events, then from the others with the data register as the first leave it. -/
theorem latches_append (p : Params) (h : Nat) (prev : Byte) (xs ys : List Event) :
    latches p h prev (xs ++ ys) = latches p h prev xs ++ latches p h (dataAfter h prev xs) ys := by
  induction xs generalizing prev with
  | nil => rfl
  | cons e rest ih =>
    cases e with
    | wrDir k v | wait k => exact ih prev
    | wrData k v =>
      simp only [List.cons_append, latches, dataAfter]
      split
      · rw [ih v, List.append_assoc]
      · exact ih prev

/-! ### Transactions one after another -/

theorem peTxns_singleton (p : Params) (t : Txn) (q : Pe) : peTxns p [t] q = peTxn p t q := by simp [peTxns]

/-- A byte's events leave the data register as the PE has it. -/
theorem dataAfter_peTxn {p : Params} (hl : p.specLayout = true) {t : Txn} (ht : sendsByte t = true) (q : Pe) :
    dataAfter q.active q.d (peTxn p t q).2 = (peTxn p t q).1.d := by
  cases t with
  | cmd b => simp [sendCmd_run hl, cmdEvents, dataAfter, cmdFinal]
  | data b => simp [sendByte_run hl, dataEvents, dataAfter, dataFinal]
  | portInit | select h => cases ht

/-- A byte is latched as two nibbles (R103). -/
theorem exists_latches_peTxn {p : Params} (hl : p.specLayout = true) {t : Txn} (ht : sendsByte t = true) (q : Pe) :
    ∃ hi lo, latches p q.active q.d (peTxn p t q).2 = [hi, lo] := by
  cases t with
  | cmd b => rw [peTxn_cmd, sendCmd_run hl]; exact ⟨_, _, latches_cmdEvents hl q.active q.d b⟩
  | data b => rw [peTxn_data, sendByte_run hl]; exact ⟨_, _, latches_dataEvents hl q.active q.d b⟩
  | portInit | select h => cases ht

/-- A byte's two nibbles make one bus byte, and the LCD is in nibble phase again (R75). -/
theorem busBytes_cons {p : Params} (hl : p.specLayout = true) {t : Txn} (ht : sendsByte t = true) (rest : List Txn) (q : Pe) :
    busBytes p q.active q.d (peTxns p (t :: rest) q).2 =
      busBytes p q.active q.d (peTxn p t q).2 ++
        busBytes p (peTxn p t q).1.active (peTxn p t q).1.d (peTxns p rest (peTxn p t q).1).2 := by
  obtain ⟨hi, lo, hlatch⟩ := exists_latches_peTxn hl ht q
  rw [(drivenTo_peTxn ht q).active, peTxns, busBytes, busBytes, latches_append, hlatch, dataAfter_peTxn hl ht]
  rfl

/-- The byte a transaction puts on the bus of a port whose RS is 1. -/
def txnByte : Txn → List BusByte
  | .cmd b => [busC b]
  | .data b => [busD b]
  | .portInit => []
  | .select _ => []

/-- A command leaves RS at 1 (R104). -/
theorem cmdFinal_rs (d b : Byte) : (cmdFinal d b).getLsbD 1 = true := by
  rw [cmdFinal, BitVec.getLsbD_or]
  exact Bool.or_true _

/-- From RS = 1 a byte is latched as what it is sent as, and RS is 1 again. -/
theorem txnByte_peTxn {p : Params} (hl : p.specLayout = true) {t : Txn} (ht : sendsByte t = true) {q : Pe}
    (hrs : q.d.getLsbD 1 = true) :
    busBytes p q.active q.d (peTxn p t q).2 = txnByte t ∧ (peTxn p t q).1.d.getLsbD 1 = true := by
  cases t with
  | cmd b =>
    refine ⟨(transactionBusBytes p b q hl).1, ?_⟩
    rw [peTxn_cmd, sendCmd_run hl, d_portWrite, cmdFinal_rs]
  | data b =>
    refine ⟨(transactionBusBytes p b q hl).2.trans (by rw [hrs]; rfl), ?_⟩
    rw [peTxn_data, sendByte_run hl, d_portWrite, dataFinal_rs hl, hrs]
  | portInit | select h => cases ht

/-- From RS = 1 every byte is latched as what it is sent as. -/
theorem busBytes_peTxns {p : Params} (hl : p.specLayout = true) {ts : List Txn} (hts : ts.all sendsByte = true) {q : Pe}
    (hrs : q.d.getLsbD 1 = true) : busBytes p q.active q.d (peTxns p ts q).2 = ts.flatMap txnByte := by
  induction ts generalizing q with
  | nil => rfl
  | cons t rest ih =>
    rw [List.all_cons, Bool.and_eq_true] at hts
    obtain ⟨ht, hrest⟩ := hts
    obtain ⟨hbyte, hrs'⟩ := txnByte_peTxn hl ht hrs
    rw [busBytes_cons hl ht, hbyte, ih hrest hrs', List.flatMap_cons]

/-- And from any RS where the first byte is a command, which sets RS itself. -/
theorem busBytes_peTxns_cmd {p : Params} (hl : p.specLayout = true) (b : Byte) {ts : List Txn}
    (hts : ts.all sendsByte = true) (q : Pe) :
    busBytes p q.active q.d (peTxns p (.cmd b :: ts) q).2 = busC b :: ts.flatMap txnByte := by
  have hrs : (peTxn p (.cmd b) q).1.d.getLsbD 1 = true := by rw [peTxn_cmd, sendCmd_run hl, d_portWrite, cmdFinal_rs]
  rw [busBytes_cons hl rfl, (transactionBusBytes p b q hl).1, busBytes_peTxns hl hts hrs]
  rfl

/-! ### The requests (R143, R150, R154) -/

/-- R240's condition, as the RS level of the active port. -/
theorem rs_of_rsReady {s : State} (hl : s.par.specLayout = true) (h : s.rsReady = true) : s.pe.d.getLsbD 1 = true := by
  rw [State.rsReady, Bool.and_eq_true, (specLayout_fields hl _).2.1] at h
  exact h.1

/-- Settles O30: `MOVE`'s one command, whose address is in range as R51 adds it. -/
theorem moveInRangeSendsItsAddress : Obligations.MoveInRangeSendsItsAddress := by
  intro r c s hl hp hidle hr hc
  have hbus : busBytes s.par s.pe.active s.pe.d (cmdEvents s.pe.active s.pe.d (addrCmd s.par r c)) =
      [busC (s.par.addrCmdPrefix ||| (r <<< 6) ||| c)] := by
    rw [busBytes, latches_cmdEvents hl, pairUp_nibbles, addrCmd_eq_or hp]
    rfl
  have hrange : decide (r.toNat > 1 ∨ c.toNat > 15) = false := by rw [decide_eq_false_iff_not]; omega
  refine ⟨_, _, moveResult r c s hl hp hidle, congrArg _ (congrArg _ (addrCmd_eq_ofNat hp r c).symm), hbus,
    fun hpre => ?_, rfl, ?_⟩
  · rw [hbus, hpre, BitVec.zero_or]
  · rw [hrange, Bool.or_false]

/-- The bytes of a `PUTC` (R144). -/
theorem txnByte_putTxns {p : Params} (hp : p.specGeometry = true) (col ch : Byte) :
    (putTxns p col ch).flatMap txnByte =
      (if col = 16#8 then [busC (addrCmd p 1#8 0#8)] else []) ++ [busD ch] := by
  rw [putTxns, (specGeometry_cols hp).2]
  split <;> rfl

/-- The column after a `PUTC`, with R7's geometry. -/
theorem colAfterPutc_eq {p : Params} (hp : p.specGeometry = true) (col : Byte) :
    colAfterPutc p col = if col = 16#8 then 1#8 else col + 1#8 := by
  rw [colAfterPutc, (specGeometry_cols hp).2, specWidths_colVal (specGeometry_specWidths hp)]

/-- Two `PUTC`s: the second wraps from column 15 on entry, and the column ends two further but for the wrap. -/
theorem colAfterPutc_twice {p : Params} (hp : p.specGeometry = true) (col : Byte) :
    (colAfterPutc p col = 16#8 ↔ col = 15#8) ∧
      colAfterPutc p (colAfterPutc p col) = if col = 16#8 then 2#8 else if col = 15#8 then 1#8 else col + 2#8 := by
  simp only [colAfterPutc_eq hp]
  revert col
  decide

theorem sendsBytes_number (p : Params) (n : Byte) : (numberScript p n).SendsBytes :=
  sendsBytes_andThen (sendsBytes_putc p _) (sendsBytes_putc p _)

/-- Settles O34: the two `PUTC`s, the second from the column the first leaves. -/
theorem numberRendering : Obligations.NumberRendering := by
  intro n s hl hp hidle hready
  refine ⟨_, _, exec_number (specGeometry_specWidths hp) hidle n, served_trace .., ?_, ?_,
    fun hb => renderedNumber_eq_table hb n⟩
  · rw [busBytes_peTxns hl (sendsBytes_number s.par n s.ct) (rs_of_rsReady hl hready), txnsOf_number, List.flatMap_append,
      txnByte_putTxns hp, txnByte_putTxns hp, ← List.append_assoc]
    simp only [(colAfterPutc_twice hp s.ct.col).1]
  · rw [served_ct, after_number_col, (colAfterPutc_twice hp s.ct.col).2]

/-- Settles O38: the bytes of R156's row for `CLRFROM`. -/
theorem clrfromBusBytes : Obligations.ClrfromBusBytes := by
  intro x y s hl hp hidle hready
  have haddr (r c : Byte) : [addrTxn s.par r c].flatMap txnByte = [busC (addrCmd s.par r c)] := rfl
  have hspaces (k : Nat) : (List.replicate k (Txn.data s.par.charSpace)).flatMap txnByte =
      List.replicate k (busD s.par.charSpace) := by
    rw [List.flatMap_replicate]
    exact List.flatten_replicate_singleton
  refine ⟨_, _, exec_clrfrom (specGeometry_specWidths hp) hidle x y, served_trace .., ?_⟩
  rw [busBytes_peTxns hl (sendsBytes_clrfrom s.par x y s.ct) (rs_of_rsReady hl hready), txnsOf_clrfrom hp]
  split <;> simp only [List.flatMap_append, List.flatMap_nil, haddr, hspaces]

/-! ### `INIT` (R140) -/

/-- The events of some commands, `d` being `DATA[a]` before them. -/
def cmdsEvents (a : Nat) (d : Byte) : List Byte → List Event
  | [] => []
  | b :: rest => cmdEvents a d b ++ cmdsEvents a (cmdFinal d b) rest

/-- Commands one after another: each finds the data register as the one before it leaves it (R111). -/
theorem peTxns_cmds {p : Params} (hl : p.specLayout = true) (bs : List Byte) (q : Pe) :
    (peTxns p (bs.map .cmd) q).2 = cmdsEvents q.active q.d bs ∧ (peTxns p (bs.map .cmd) q).1.d = bs.foldl cmdFinal q.d := by
  induction bs generalizing q with
  | nil => exact ⟨rfl, rfl⟩
  | cons b rest ih =>
    rw [List.map_cons, peTxns, peTxn_cmd, sendCmd_run hl, List.foldl_cons]
    have hrest := ih { q with ports := portWrite q.ports (dataKey q.active) (cmdFinal q.d b) }
    rw [d_portWrite] at hrest
    exact ⟨congrArg (cmdEvents q.active q.d b ++ ·) hrest.1, hrest.2⟩

theorem sendsByte_cmds (bs : List Byte) : (bs.map Txn.cmd).all sendsByte = true := by simp [sendsByte]

theorem txnByte_cmds (bs : List Byte) : (bs.map Txn.cmd).flatMap txnByte = bs.map busC := by
  rw [List.flatMap_map, List.map_eq_flatMap]
  rfl

/-- The five bytes `INIT` commands (R140). -/
def initBytes (p : Params) : List Byte := [p.opHandshake, p.opFuncset, p.opEntry, p.opDispon, p.opClear]

/-- `PE.PORTINIT` with R7's layout: the direction bits of 0xF3, then the data register zeroed (R113). -/
theorem peTxn_portInit_run {p : Params} (hl : p.specLayout = true) (q : Pe) :
    peTxn p .portInit q =
      ((((q.writeDir q.active (q.dir q.active ||| 0xF3#8)).1).writeData q.active 0x00#8).1,
        [.wrDir q.active (q.dir q.active ||| 0xF3#8), .wrData q.active 0x00#8]) := by
  rw [peTxn_portInit, ← specLayout_dirCfg hl]
  rfl

/-- `INIT`'s events: `PE.PORTINIT`'s two, and the five commands' from a data register at 0. -/
def initEvents (p : Params) (q : Pe) : List Event :=
  [.wrDir q.active (q.dir q.active ||| 0xF3#8), .wrData q.active 0x00#8] ++ cmdsEvents q.active 0x00#8 (initBytes p)

theorem txnsOf_init (p : Params) (c : Ct) : txnsOf (initScript p c) = .portInit :: (initBytes p).map .cmd := rfl

/-- What `INIT` does to the PE: events, final data and direction; `ACTIVE` is kept. -/
theorem peTxns_init {p : Params} (hl : p.specLayout = true) (c : Ct) (q : Pe) :
    let q' := (peTxns p (txnsOf (initScript p c)) q).1
    (peTxns p (txnsOf (initScript p c)) q).2 = initEvents p q ∧ q'.active = q.active ∧
      q'.d = (initBytes p).foldl cmdFinal 0x00#8 ∧ q'.dir q.active = q.dir q.active ||| 0xF3#8 := by
  rw [txnsOf_init, peTxns, peTxn_portInit_run hl]
  generalize hq1 : ((q.writeDir q.active (q.dir q.active ||| 0xF3#8)).1.writeData q.active 0x00#8).1 = q1
  have hactive : q1.active = q.active := by rw [← hq1]; rfl
  have hd : q1.d = 0x00#8 := by rw [Pe.d, hactive, ← hq1, writeData_data, if_pos rfl]
  have hdir : q1.dir q.active = q.dir q.active ||| 0xF3#8 := by rw [← hq1, writeData_dir, writeDir_dir, if_pos rfl]
  obtain ⟨hevents, hfinal⟩ := peTxns_cmds hl (initBytes p) q1
  have hdriven := drivenTo_peTxns (p := p) (sendsByte_cmds (initBytes p)) q1
  rw [hactive, hd] at hevents
  rw [hd] at hfinal
  refine ⟨?_, hdriven.active.trans hactive, hfinal, (hdriven.dir _).trans hdir⟩
  rw [initEvents, ← hevents]

/-- `PE.PORTINIT` latches nothing where E was 0 on entry; the five commands follow from nibble phase. -/
theorem busBytes_init {p : Params} (hl : p.specLayout = true) {q : Pe} (he : eOf p q.d = false) :
    busBytes p q.active q.d (initEvents p q) = (initBytes p).map busC := by
  have hport : latches p q.active q.d [.wrDir q.active (q.dir q.active ||| 0xF3#8), .wrData q.active 0x00#8] = [] := by
    simp [latches, latchOf_zero, he]
  have hafter : dataAfter q.active q.d [.wrDir q.active (q.dir q.active ||| 0xF3#8), .wrData q.active 0x00#8] = 0x00#8 := by
    simp [dataAfter]
  have hzero := peTxns_cmds hl (initBytes p) { q with ports := portWrite q.ports (dataKey q.active) 0x00#8 }
  have hbytes := busBytes_peTxns_cmd hl p.opHandshake (sendsByte_cmds [p.opFuncset, p.opEntry, p.opDispon, p.opClear])
    { q with ports := portWrite q.ports (dataKey q.active) 0x00#8 }
  rw [d_portWrite] at hzero hbytes
  rw [txnByte_cmds] at hbytes
  rw [busBytes, initEvents, latches_append, hport, hafter, ← hzero.1]
  exact hbytes

/-- Settles O28: `INIT`'s transactions served, and `COL <- 0` after them. -/
theorem initResult : Obligations.InitResult := by
  intro s hl hidle a d1 d2 d3 d4 evs
  obtain ⟨hevents, hactive, hd, hdir⟩ := peTxns_init hl s.ct s.pe
  have hevs : initEvents s.par s.pe = evs := by simp [initEvents, cmdsEvents, initBytes, evs, d1, d2, d3, d4, a]
  have hdata : (s.served (initScript s.par)).pe.data a = cmdFinal d4 s.par.opClear := by
    rw [Pe.d, hactive] at hd
    exact hd
  have hct : (s.served (initScript s.par)).ct = { s.ct with col := 0#8 } := by
    simp [initScript, Ct.after, CtOp.run]
  have hbus (he : eOf s.par s.pe.d = false) : busBytes s.par a s.pe.d evs =
      [busC s.par.opHandshake, busC s.par.opFuncset, busC s.par.opEntry, busC s.par.opDispon, busC s.par.opClear] := by
    rw [← hevs]
    exact busBytes_init hl he
  have hexec : exec .init s = .next (s.served (initScript s.par)) := exec_served hidle rfl
  refine ⟨_, hexec, ?_, hactive, hdata, hdir, hct, (served_seq s _).trans hidle, hbus, fun hb => ?_⟩
  · rw [← hevs, ← hevents]
    rfl
  · obtain ⟨h1, h2, h3, h4, h5, -⟩ := (specBytes_iff s.par).1 hb
    refine ⟨hdata.trans ?_, fun he => ?_⟩
    · simp only [d1, d2, d3, d4, h1, h2, h3, h4, h5]
      decide
    · rw [hbus he, h1, h2, h3, h4, h5]

end Sys2Proof.Machine
end

section
/-! The wrap-count law of `WRITE` (41_cursor_tracker R145, R146): where the wraps fall, how many they are and where the column
ends, each by what one more character at the front of the text changes. -/

namespace Sys2Proof.Machine

/-! ### One character more -/

theorem toNat_wrapCol {p : Params} (hp : p.specGeometry = true) : p.wrapCol.toNat = 16 := by
  rw [(specGeometry_cols hp).2]
  rfl

/-- With R7's geometry `i1` is `16 - c` modulo 256. -/
theorem firstWrap_eq {p : Params} (hp : p.specGeometry = true) (col : Byte) : firstWrap p col = (16#8 - col).toNat := by
  rw [firstWrap, (specGeometry_cols hp).2, specWidths_colVal (specGeometry_specWidths hp)]

/-- The first wrap comes at once from column 16, and nowhere else. -/
theorem firstWrap_eq_zero_iff {p : Params} (hp : p.specGeometry = true) (col : Byte) : firstWrap p col = 0 ↔ col = 16#8 := by
  rw [firstWrap_eq hp]
  revert col; decide

/-- After a character the first wrap is one index nearer, or 15 ahead where the character itself took one. -/
theorem firstWrap_colAfterPutc {p : Params} (hp : p.specGeometry = true) (col : Byte) :
    firstWrap p (colAfterPutc p col) = if col = 16#8 then 15 else firstWrap p col - 1 := by
  rw [colAfterPutc_eq hp, firstWrap_eq hp, firstWrap_eq hp]
  revert col; decide

/-- The first character is preceded by a wrap at column 16 only. -/
theorem wrapsBefore_zero {p : Params} (hp : p.specGeometry = true) (col : Byte) :
    wrapsBefore p col 0 = decide (col = 16#8) := by
  rw [wrapsBefore, Nat.zero_sub, Nat.zero_mod, Bool.eq_iff_iff]
  simp [firstWrap_eq_zero_iff hp]

/-- The wraps among the other characters are those of the text without the first, from the column that one leaves. -/
theorem wrapsBefore_succ {p : Params} (hp : p.specGeometry = true) (col : Byte) (i : Nat) :
    wrapsBefore p col (i + 1) = wrapsBefore p (colAfterPutc p col) i := by
  have hzero := firstWrap_eq_zero_iff hp col
  have hnext := firstWrap_colAfterPutc hp col
  rw [wrapsBefore, wrapsBefore, toNat_wrapCol hp, Bool.eq_iff_iff]
  simp only [Bool.and_eq_true, decide_eq_true_eq, beq_iff_eq]
  split at hnext
  · next hc =>
    have hnow := hzero.2 hc
    omega
  · next hc =>
    have hlater := mt hzero.1 hc
    omega

/-- `W`, character by character. -/
theorem wrapCount_succ {p : Params} (hp : p.specGeometry = true) (col : Byte) (n : Nat) :
    wrapCount p col (n + 1) = (if col = 16#8 then 1 else 0) + wrapCount p (colAfterPutc p col) n := by
  have hzero := firstWrap_eq_zero_iff hp col
  have hnext := firstWrap_colAfterPutc hp col
  rw [wrapCount, wrapCount, toNat_wrapCol hp, Nat.add_sub_cancel]
  by_cases hc : col = 16#8
  · have hw := hzero.2 hc
    rw [if_pos hc] at hnext ⊢
    rw [hnext, hw, if_neg (Nat.not_succ_le_zero n)]
    split <;> omega
  · have hw := mt hzero.1 hc
    rw [if_neg hc] at hnext ⊢
    rw [hnext, Nat.zero_add]
    by_cases hn : n + 1 ≤ firstWrap p col
    · rw [if_pos hn, if_pos (by omega)]
    · rw [if_neg hn, if_neg (by omega)]
      congr 2
      omega

/-- From a column up to 16 `W` has R146's closed form. -/
theorem wrapCount_eq_div {p : Params} (hp : p.specGeometry = true) {col : Byte} (hcol : col.toNat ≤ 16) (n : Nat) :
    wrapCount p col n = if n = 0 then 0 else (col.toNat + n - 1) / 16 := by
  have hfirst : firstWrap p col = 16 - col.toNat := by
    rw [firstWrap_eq hp]
    exact BitVec.toNat_sub_of_le (BitVec.le_def.2 hcol)
  rw [wrapCount, toNat_wrapCol hp, hfirst]
  split <;> split <;> omega

/-! ### The text -/

/-- The CT after the first character of a text is at the column R144 says. -/
theorem col_after_putc (p : Params) (ch : Byte) (c : Ct) :
    (c.after p (putcScript p ch c)).col = colAfterPutc p c.col := by rw [after_putc]

theorem sendsBytes_text (p : Params) (text : List Byte) : (textScript p text).SendsBytes := by
  induction text with
  | nil => exact fun _ => rfl
  | cons ch rest ih => exact sendsBytes_andThen (sendsBytes_putc p ch) ih

/-- The bytes R146 gives the character with this index: the wrap's command, where one comes before it, and the character. -/
def writeBytes (p : Params) (col : Byte) (c : Byte × Nat) : List BusByte :=
  (if wrapsBefore p col c.2 then [busC (addrCmd p 1#8 0#8)] else []) ++ [busD c.1]

theorem txnByte_text_cons {p : Params} (hp : p.specGeometry = true) (ch : Byte) (rest : List Byte) (c : Ct) :
    (txnsOf (textScript p (ch :: rest) c)).flatMap txnByte =
      (if c.col = 16#8 then [busC (addrCmd p 1#8 0#8)] else []) ++ [busD ch] ++
        (txnsOf (textScript p rest (c.after p (putcScript p ch c)))).flatMap txnByte := by
  rw [textScript, andThen_txns, txnsOf_putc, List.flatMap_append, txnByte_putTxns hp]

/-- Each wrap comes where R146 says. -/
theorem txnByte_text {p : Params} (hp : p.specGeometry = true) (text : List Byte) (c : Ct) :
    (txnsOf (textScript p text c)).flatMap txnByte = text.zipIdx.flatMap (writeBytes p c.col) := by
  induction text generalizing c with
  | nil => rfl
  | cons ch rest ih =>
    have hshift : writeBytes p c.col ∘ Prod.map id (· + 1) = writeBytes p (colAfterPutc p c.col) := by
      funext x
      simp [writeBytes, wrapsBefore_succ hp]
    have hfirst : writeBytes p c.col (ch, 0) =
        (if c.col = 16#8 then [busC (addrCmd p 1#8 0#8)] else []) ++ [busD ch] := by
      simp [writeBytes, wrapsBefore_zero hp]
    rw [txnByte_text_cons hp, ih, col_after_putc, List.zipIdx_cons', List.flatMap_cons, hfirst, List.flatMap_map, ← hshift]
    rfl

/-- The instruction bytes of a text are its wraps. -/
theorem countP_text {p : Params} (hp : p.specGeometry = true) (text : List Byte) (c : Ct) :
    ((txnsOf (textScript p text c)).flatMap txnByte).countP (fun b => !b.rs) = wrapCount p c.col text.length := by
  induction text generalizing c with
  | nil => rfl
  | cons ch rest ih =>
    rw [txnByte_text_cons hp, List.countP_append, ih, col_after_putc, List.length_cons, wrapCount_succ hp]
    split <;> rfl

/-- Each wrap takes the column back by 16. -/
theorem col_after_text {p : Params} (hp : p.specGeometry = true) (text : List Byte) {c : Ct} (hc : c.col.toNat ≤ 16) :
    (c.after p (textScript p text c)).col.toNat + 16 * wrapCount p c.col text.length = c.col.toNat + text.length := by
  induction text generalizing c with
  | nil => rfl
  | cons ch rest ih =>
    have hnext := colAfterPutc_le hp hc
    have hcol := col_after_putc p ch c
    have hmoves : ∀ col : Byte, col.toNat ≤ 16 →
        (if col = 16#8 then 1#8 else col + 1#8).toNat + 16 * (if col = 16#8 then 1 else 0) = col.toNat + 1 := by decide
    have hstep := hmoves c.col hc
    rw [← colAfterPutc_eq hp] at hstep
    have hrest := ih (c := c.after p (putcScript p ch c)) (by rwa [hcol])
    rw [hcol] at hrest
    rw [textScript, andThen_after, List.length_cons, wrapCount_succ hp]
    omega

/-- Settles O39: `WRITE` is a `PUTC` for each byte, of which each moves R146's count on by one. -/
theorem writeWrapCountLaw : Obligations.WriteWrapCountLaw := by
  intro text s hl hp hidle hready
  have hbus := busBytes_peTxns hl (sendsBytes_text s.par text s.ct) (rs_of_rsReady hl hready)
  refine ⟨_, _, execWrite_served (specGeometry_specWidths hp) hidle text, served_trace .., ?_, ?_, fun hc => ⟨?_, ?_⟩⟩
  · rw [hbus, txnByte_text hp]
    rfl
  · rw [hbus, countP_text hp]
  · exact col_after_text hp text hc
  · exact wrapCount_eq_div hp hc text.length

end Sys2Proof.Machine
end

section
/-! Faults, marks and refusals (60_exceptions R201 to R206): which request faults and what the fault writes, that a faulted
block takes no step, what a reserved word does, and which requests mark misuse. -/

namespace Sys2Proof.Machine

/-! ### The fault (R201, R204) -/

/-- The handle check raises a fault exactly where the handle is no member, and the fault records that handle. -/
theorem selectFault_eq_some_iff {p : Params} {h : Byte} {f : Fault} :
    selectFault p h = some f ↔ p.isHandle (handleOf p h) = false ∧ f = .invalidHandle (handleOf p h) := by
  unfold selectFault
  cases p.isHandle (handleOf p h) with
  | true => simp
  | false => simpa using eq_comm

/-- Only `SETCFG` and `PE.SELECT` check a handle. -/
theorem exists_select_of_faultOf {p : Params} {i : Instr} {f : Fault} (hf : faultOf p i = some f) :
    ∃ h : Byte, (i = .setcfg h ∨ i = .peSelect h) ∧ selectFault p h = some f := by
  cases i with
  | setcfg h => exact ⟨h, .inl rfl, hf⟩
  | peSelect h => exact ⟨h, .inr rfl, hf⟩
  | _ => cases hf

/-- A request that faults raises its fault, and that is all an idle block does with it. -/
theorem exec_fault {s : State} (hidle : s.seq = .idle) {i : Instr} {f : Fault} (hf : faultOf s.par i = some f) :
    exec i s = .next (s.raise f) := by
  rw [exec_idle hidle, hf, carryOut_some]

/-- Settles O24: both requests make the one handle check, and raising a fault writes `SEQ` only. -/
theorem invalidHandleFaults : Obligations.InvalidHandleFaults := by
  intro h s hidle hno
  have hf : selectFault s.par h = some (.invalidHandle (handleOf s.par h)) := selectFault_eq_some_iff.2 ⟨hno, rfl⟩
  exact ⟨exec_fault (i := .peSelect h) hidle hf, exec_fault (i := .setcfg h) hidle hf, fun hw => specWidths_handleOf hw h⟩

/-- Settles O25: a request without a fault runs micro-operations, which keep `SEQ`; one with a fault is a handle check's. -/
theorem onlySelectFaults : Obligations.OnlySelectFaults := by
  intro i s t hidle hexec
  cases hf : faultOf s.par i with
  | none =>
    rw [exec_served hidle hf] at hexec
    cases hexec
    exact .inl hidle
  | some f =>
    obtain ⟨h, hi, hselect⟩ := exists_select_of_faultOf hf
    obtain ⟨hno, rfl⟩ := selectFault_eq_some_iff.1 hselect
    rw [exec_fault hidle hf] at hexec
    cases hexec
    exact .inr ⟨h, hi, hno, rfl, fun hw => specWidths_handleOf hw h⟩

/-! ### A faulted block (R201, R206) -/

/-- A faulted block answers a next state to block reset only. -/
theorem resetReq_of_faulted_next {s t : State} {f : Fault} (hs : s.seq = .faulted f)
    {k : Instr → State → Host.Outcome State Fault Refusal} (h : s.stepWith k = .next t) : s.resetReq = true := by
  cases hr : s.resetReq with
  | true => rfl
  | false => rw [stepWith_faulted hr hs] at h; cases h

/-- Settles O13: serving a request and both grains answer the fault the block is stuck in. -/
theorem faultedBlockIsStuck : Obligations.FaultedBlockIsStuck := by
  intro s f hs
  refine ⟨fun i => ?_, fun hr => ⟨stepWith_faulted hr hs _, stepWith_faulted hr hs _⟩,
    fun t => resetReq_of_faulted_next hs, fun t => resetReq_of_faulted_next hs⟩
  rw [exec_eq_serve, serve_faulted hs]

/-! ### A reserved word (R203, R205) -/

/-- A reserved word is taken and refused, whatever is done with a decoded request. -/
theorem stepWith_reserved {s : State} {w : CodeWord} {rest : Offers} {r : Reject} (hr : s.resetReq = false)
    (hs : s.seq = .idle) (ho : s.offers.pop = some (w, rest)) (hd : decode w = .error r)
    (k : Instr → State → Host.Outcome State Fault Refusal) :
    s.stepWith k = .next { s with offers := rest, refusals := s.refusals ++ [r] } := by
  rw [stepWith_offer hr hs ho, takeOffer_error hd]
  rfl

/-- Settles O8: both grains refuse a word that is no request's before anything is done with a request. -/
theorem reservedWordIsRefused : Obligations.ReservedWordIsRefused :=
  fun _ _ _ _ hr hs ho hd => ⟨stepWith_reserved hr hs ho hd _, stepWith_reserved hr hs ho hd _⟩

/-! ### The misuse mark (R202) -/

/-- With R7's geometry the wrap's own move, to row 1 and column 0, is in range (R144). -/
theorem inRange_wrap {p : Params} (hp : p.specGeometry = true) : inRange p 1#8 0#8 = true :=
  specGeometry_inRange hp _ _

/-- A character marks no misuse. -/
theorem after_putc_misuse {p : Params} (hp : p.specGeometry = true) (ch : Byte) (c : Ct) :
    (c.after p (putcScript p ch c)).misuse = c.misuse := by
  simp [after_putc, inRange_wrap hp]

/-- The cascade's move is the wrap's, and its spaces are characters. -/
theorem after_cascade_misuse {p : Params} (hp : p.specGeometry = true) (x : Byte) (c : Ct) :
    (c.after p (cascadeScript p x c)).misuse = c.misuse := by
  unfold cascadeScript
  split
  · rw [andThen_after, clrlineScript, after_spaces_misuse p (inRange_wrap hp), after_move, inRange_wrap hp]
    exact Bool.or_false _
  · rfl

/-- `CLRFROM` marks misuse by its first move and by the move back to the column it found (R153). -/
theorem after_clrfrom_misuse {p : Params} (hp : p.specGeometry = true) (x y : Byte) (c : Ct) :
    (c.after p (clrfromScript p x y c)).misuse = (c.misuse || !inRange p x y || !inRange p x c.col) := by
  simp only [clrfromScript, andThen_after, restoreScript, after_move, after_cascade_misuse hp, after_cascade_saved,
    clrlineScript, after_spaces_misuse p (inRange_wrap hp), after_spaces_saved]
  rfl

/-- R202's range of a move, read from the other side. -/
theorem not_inRange (p : Params) (r c : Byte) :
    (!inRange p r c) = (decide (p.rows ≤ r.toNat) || decide (p.cols ≤ c.toNat)) := by
  rw [inRange, Bool.not_and, ← decide_not, ← decide_not]
  simp only [Nat.not_lt]

/-- The mark after each request: the two kinds that make a move of their own add its range, every other keeps the mark. -/
theorem ctAfter_misuse {p : Params} (hp : p.specGeometry = true) (i : Instr) (c : Ct) :
    (ctAfter p i c).misuse = (c.misuse || outOfRangeMove p c.col i) := by
  have hw := specGeometry_specWidths hp
  rw [ctAfter_eq]
  cases i with
  | move r k =>
    rw [scriptOf, after_move, not_inRange, specWidths_operand hw, specWidths_operand hw]
    rfl
  | clrfrom x y =>
    rw [scriptOf, after_clrfrom_misuse hp, not_inRange, not_inRange, specWidths_operand hw, specWidths_operand hw,
      outOfRangeMove]
    cases decide (p.rows ≤ x.toNat) with
    | true => simp
    | false => simp [Bool.or_assoc]
  | putc ch => rw [scriptOf, after_putc_misuse hp]; exact (Bool.or_false _).symm
  | number n =>
    rw [scriptOf, numberScript, andThen_after, after_putc_misuse hp, after_putc_misuse hp]
    exact (Bool.or_false _).symm
  | clrline k =>
    rw [scriptOf, clrlineScript, after_spaces_misuse p (inRange_wrap hp)]
    exact (Bool.or_false _).symm
  | init | setcfg k | clear | home | peCmd b | peData b | pePortinit | peSelect k => exact (Bool.or_false _).symm

/-- Settles O52: the mark after a request is the CT's. -/
theorem misuseOnlyFromMoves : Obligations.MisuseOnlyFromMoves := by
  intro i s t hp hidle hexec
  rw [exec_idle hidle] at hexec
  cases hexec
  rw [(carryOut_units s i).2, ctAfter_misuse hp]

end Sys2Proof.Machine
end

section
/-! Block reset and the waiting block (70_reset_and_hazards R230): what a step of either grain does before it looks at a request. -/

namespace Sys2Proof.Machine

/-- A block that waits and is offered nothing stays as it is, whatever is done with a decoded request. -/
theorem stepWith_waiting {s : State} (hr : s.resetReq = false) (hs : s.seq = .idle) (ho : s.offers.pop = none)
    (k : Instr → State → Host.Outcome State Fault Refusal) : s.stepWith k = .next s := by
  simp [State.stepWith, hr, hs, ho]

/-- Reset is taken first, from every position of the sequencer. -/
theorem stepWith_reset {s : State} (hr : s.resetReq = true) (k : Instr → State → Host.Outcome State Fault Refusal) :
    s.stepWith k = .next s.blockReset :=
  if_pos hr

/-- Settles O9: both grains are `stepWith`, which does nothing where no word is offered. -/
theorem idleBlockWaits : Obligations.IdleBlockWaits :=
  fun _ hr hs ho => ⟨stepWith_waiting hr hs ho _, stepWith_waiting hr hs ho _⟩

/-- Settles O14: both grains take the reset, which writes `ACTIVE`, the CT, `SEQ` and the mark, and keeps the ports, the trace,
the parameters and the words still to be offered. -/
theorem blockResetEffect : Obligations.BlockResetEffect := fun s hr =>
  ⟨s.blockReset, stepWith_reset hr _, stepWith_reset hr _, blockReset_active s, blockReset_col s, blockReset_misuse s,
    blockReset_seq s, blockReset_refusals s, blockReset_trace s, blockReset_par s, blockReset_offers s,
    fun _ => congrArg (portRead · _) (blockReset_ports s), fun _ => congrArg (portRead · _) (blockReset_ports s)⟩

end Sys2Proof.Machine
end

section
/-! The minimum duration of a request (70_reset_and_hazards R250): the durations of its transactions, summed. -/

namespace Sys2Proof.Machine

theorem minNs_append (p : Params) (xs ys : List Event) : minNs p (xs ++ ys) = minNs p xs + minNs p ys := by
  induction xs with
  | nil => exact (zero_add _).symm
  | cons e rest ih =>
    cases e with
    | wrDir h v | wrData h v => exact ih
    | wait k => rw [List.cons_append, minNs, minNs, ih, add_assoc]

/-- `PE.PORTINIT` and `PE.SELECT` wait for nothing (R113 to R115). -/
theorem minNs_peTxn_portInit (p : Params) (q : Pe) : minNs p (peTxn p .portInit q).2 = 0 := rfl

theorem minNs_peTxn_select (p : Params) (h : Byte) (q : Pe) : minNs p (peTxn p (.select h) q).2 = 0 := by
  rw [peTxn_select]
  split <;> rfl

/-- Some transactions take `C` for each command and `D` for each data byte at least, from every PE state. -/
theorem minNs_peTxns (p : Params) (ts : List Txn) (q : Pe) :
    minNs p (peTxns p ts q).2 = cmdCount ts * cmdNs p + dataCount ts * dataNs p := by
  induction ts generalizing q with
  | nil => simp [peTxns, minNs, cmdCount, dataCount]
  | cons t rest ih =>
    rw [peTxns, minNs_append, ih]
    cases t with
    | cmd b => rw [minNs_peTxn_cmd, cmdCount, dataCount, Nat.cast_succ]; ring
    | data b => rw [minNs_peTxn_data, cmdCount, dataCount, Nat.cast_succ]; ring
    | portInit => rw [minNs_peTxn_portInit, zero_add]; rfl
    | select h => rw [minNs_peTxn_select, zero_add]; rfl

/-- Settles O47: the events of a request that does not fault are those of its transactions. -/
theorem requestMinimumDuration : Obligations.RequestMinimumDuration := by
  intro i s t hidle hf hexec
  rw [exec_served hidle hf] at hexec
  cases hexec
  exact ⟨_, served_trace .., minNs_peTxns ..⟩

end Sys2Proof.Machine
end

section
/-! The lines of a port between and during requests (70_reset_and_hazards R240, R247): that a port whose driven lines are
outputs is driven throughout a request, and that the active port is left in data mode. -/

namespace Sys2Proof.Machine

/-! ### A configured port (R247) -/

/-- Where the driven lines are outputs, and every write of the direction register has them so, each latch counts. -/
theorem drivenLatches_eq_latches {p : Params} {h : Nat} {evs : List Event}
    (hevs : ∀ v, Event.wrDir h v ∈ evs → v &&& p.drivenMask = p.drivenMask) {dir : Byte}
    (hdir : dir &&& p.drivenMask = p.drivenMask) (prev : Byte) :
    drivenLatches p h dir prev evs = latches p h prev evs := by
  induction evs generalizing dir prev with
  | nil => rfl
  | cons e rest ih =>
    have hrest (v : Byte) (hv : Event.wrDir h v ∈ rest) := hevs v (List.mem_cons_of_mem _ hv)
    cases e with
    | wait k => exact ih hrest hdir prev
    | wrData k v => rw [drivenLatches, latches, if_pos hdir, ih hrest hdir, ih hrest hdir]
    | wrDir k v =>
      refine ih hrest ?_ prev
      split
      · next hk => subst hk; exact hevs v List.mem_cons_self
      · exact hdir

/-- `DIRCFG` alone writes a direction register, and it makes the driven lines outputs (R24, R100). -/
theorem wrDir_mem_run {p : Params} {op : PeOp} {q : Pe} {k : Nat} {v : Byte} (h : .wrDir k v ∈ (op.run p q).2) :
    v &&& p.drivenMask = p.drivenMask := by
  cases op with
  | dirCfg j =>
    obtain ⟨-, rfl⟩ : k = j ∧ v = _ := by simpa [PeOp.run] using h
    exact dirCfg_and_drivenMask p _
  | eHi | eLo | rsHi | rsLo | put w | zero | setAct j | wait j => simp [PeOp.run] at h

theorem wrDir_mem_peOps {p : Params} {ops : List PeOp} {q : Pe} {k : Nat} {v : Byte}
    (h : .wrDir k v ∈ (peOps p ops q).2) : v &&& p.drivenMask = p.drivenMask := by
  induction ops generalizing q with
  | nil => cases h
  | cons op rest ih => exact (List.mem_append.1 h).elim wrDir_mem_run ih

theorem wrDir_mem_peTxn {p : Params} {t : Txn} {q : Pe} {k : Nat} {v : Byte}
    (h : .wrDir k v ∈ (peTxn p t q).2) : v &&& p.drivenMask = p.drivenMask := by
  cases hf : faultOf p t.toInstr with
  | some f => rw [peTxn_some hf] at h; cases h
  | none => rw [peTxn_none hf] at h; exact wrDir_mem_peOps h

theorem wrDir_mem_peTxns {p : Params} {ts : List Txn} {q : Pe} {k : Nat} {v : Byte}
    (h : .wrDir k v ∈ (peTxns p ts q).2) : v &&& p.drivenMask = p.drivenMask := by
  induction ts generalizing q with
  | nil => cases h
  | cons t rest ih => exact (List.mem_append.1 h).elim wrDir_mem_peTxn ih

/-- Settles O57: the port is configured on entry, and a request writes a direction register by `DIRCFG` only. -/
theorem configuredPortIsDriven : Obligations.ConfiguredPortIsDriven := by
  intro i s t h hconf hexec
  obtain ⟨-, rfl⟩ | ⟨-, rfl⟩ := exec_next_cases hexec
  · exact ⟨_, carryOut_trace s i, drivenLatches_eq_latches (fun _ => wrDir_mem_peTxns) (beq_iff_eq.1 hconf) _⟩
  · exact ⟨[], (List.append_nil _).symm, rfl⟩

/-! ### Data mode (R240) -/

/-- RS = 1 and E = 0 in a port byte: R240's condition. -/
def dataMode (p : Params) (v : Byte) : Bool := rsOf p v && !eOf p v

theorem rsReady_eq_dataMode (s : State) : s.rsReady = dataMode s.par s.pe.d := rfl

/-- A command ends in data mode from every port byte (R104). -/
theorem dataMode_cmdFinal {p : Params} (hl : p.specLayout = true) (d b : Byte) : dataMode p (cmdFinal d b) = true := by
  have hlines : ∀ d : Byte, ((d &&& 0x0C#8) ||| 0x02#8) &&& 0xF1#8 = 0#8 := by decide
  obtain ⟨he, hrs, -⟩ := fields_or hl (loOf_lines b).1 (hlines d)
  rw [cmdFinal, BitVec.or_assoc, dataMode, he, hrs, BitVec.getLsbD_or]
  exact congrArg (· && true) (Bool.or_true _)

/-- A data byte keeps RS and ends with E at 0 (R103, R112). -/
theorem dataMode_dataFinal {p : Params} (hl : p.specLayout = true) {d : Byte} (hd : dataMode p d = true) (b : Byte) :
    dataMode p (dataFinal d b) = true := by
  obtain ⟨hlines, hkept⟩ := keptLines d
  obtain ⟨he, hrs, -⟩ := fields_or hl (loOf_lines b).1 hlines
  rw [dataMode, Bool.and_eq_true, (specLayout_fields hl d).2.1] at hd
  rw [dataFinal, dataMode, he, hrs, hkept, hd.1]
  rfl

theorem dataMode_peTxn {p : Params} (hl : p.specLayout = true) {t : Txn} (ht : sendsByte t = true) {q : Pe}
    (hq : dataMode p q.d = true) : dataMode p (peTxn p t q).1.d = true := by
  cases t with
  | cmd b => rw [peTxn_cmd, sendCmd_run hl, d_portWrite]; exact dataMode_cmdFinal hl _ _
  | data b => rw [peTxn_data, sendByte_run hl, d_portWrite]; exact dataMode_dataFinal hl hq b
  | portInit | select h => cases ht

theorem dataMode_peTxns {p : Params} (hl : p.specLayout = true) {ts : List Txn} (hts : ts.all sendsByte = true) {q : Pe}
    (hq : dataMode p q.d = true) : dataMode p (peTxns p ts q).1.d = true := by
  induction ts generalizing q with
  | nil => exact hq
  | cons t rest ih =>
    rw [List.all_cons, Bool.and_eq_true] at hts
    exact ih hts.2 (dataMode_peTxn hl hts.1 hq)

/-- `INIT` ends with a command (R140). -/
theorem rsReady_served_init {s : State} (hl : s.par.specLayout = true) : (s.served (initScript s.par)).rsReady = true := by
  obtain ⟨-, -, hd, -⟩ := peTxns_init hl s.ct s.pe
  rw [rsReady_eq_dataMode, State.served, hd]
  exact dataMode_cmdFinal hl _ s.par.opClear

/-- Pseudocode that sends bytes keeps data mode. -/
theorem rsReady_served {s : State} {sc : Script} (hl : s.par.specLayout = true) (hsc : sc.SendsBytes)
    (hs : s.rsReady = true) : (s.served sc).rsReady = true :=
  dataMode_peTxns hl (hsc s.ct) hs

/-- Settles O58: `INIT` ends with a command, and the other requests, those that switch or zero the port apart, send bytes only. -/
theorem dataModeBetweenRequests : Obligations.DataModeBetweenRequests := by
  intro s t hl hidle
  have hinit (h : exec .init s = .next t) : t.rsReady = true := by
    rw [exec_served hidle rfl] at h
    cases h
    exact rsReady_served_init hl
  refine ⟨hinit, fun i hactive hport hs h => ?_⟩
  cases i with
  | init => exact hinit h
  | setcfg k | peSelect k => cases hactive
  | pePortinit => exact absurd rfl hport
  | move r c | putc ch | clear | home | number n | clrline c | clrfrom x y | peCmd b | peData b =>
    rw [exec_served hidle rfl] at h
    cases h
    exact rsReady_served hl (sendsBytes_scriptOf s.par (a := s.pe.active) rfl) hs

end Sys2Proof.Machine
end
